-- ==== Sys2Proof/Word.lean ====
section
/-!
DEFINITION. The words of the core: the widths the spec gives its registers, fields and indexes
(spec/00_scope.md rules R8, R10, R11). Every value is unsigned.
-/

namespace Sys2Proof

/-- A memory cell, a general register or a timer: 8 bits (R8). -/
abbrev Byte := BitVec 8

/-- An instruction word, and the width of I, pc and a stack entry: 16 bits (R8). -/
abbrev Word := BitVec 16

/-- The N field of an instruction word (R81). -/
abbrev Nibble := BitVec 4

/-- The NNN field of an instruction word (R81). -/
abbrev Imm12 := BitVec 12

/-- The number of a general register V0 to VF (R20). -/
abbrev Reg := Fin 16

/-- A logical key 0x0 to 0xF (R32). -/
abbrev Key := Fin 16

/-- VF, the general register that is also the flag output (R21). -/
abbrev VF : Reg := 15

/-- V0, the register BNNN reads implicitly (R20, R108). -/
abbrev V0 : Reg := 0

end Sys2Proof
end

