-- ==== Sys2Proof/Syntax.lean ====
section
/-!
DEFINITION. The 35 instructions of the core, one constructor per row of spec/opcode_table.json
(spec/30_encoding.md rules R83, R84, R89). Operands are the fields the instruction's form uses (R83).
-/

namespace Sys2Proof

/-- The instruction set (R89), in the order of the opcode map. `x` and `y` are register numbers, `n`, `nn` and
`nnn` immediates. The pattern of each instruction, its canonical name (R93), stands beside it. -/
inductive Instr where
  /-- 00E0, clear screen -/
  | cls
  /-- 00EE, return -/
  | ret
  /-- 0NNN, legacy machine-code call -/
  | sys (nnn : Imm12)
  /-- 1NNN, jump -/
  | jp (nnn : Imm12)
  /-- 2NNN, call -/
  | call (nnn : Imm12)
  /-- 3XNN, skip if equal to immediate -/
  | seImm (x : Reg) (nn : Byte)
  /-- 4XNN, skip if not equal to immediate -/
  | sneImm (x : Reg) (nn : Byte)
  /-- 5XY0, skip if registers equal -/
  | seReg (x y : Reg)
  /-- 6XNN, load immediate -/
  | ldImm (x : Reg) (nn : Byte)
  /-- 7XNN, add immediate -/
  | addImm (x : Reg) (nn : Byte)
  /-- 8XY0, copy -/
  | ldReg (x y : Reg)
  /-- 8XY1, bitwise OR -/
  | orReg (x y : Reg)
  /-- 8XY2, bitwise AND -/
  | andReg (x y : Reg)
  /-- 8XY3, bitwise XOR -/
  | xorReg (x y : Reg)
  /-- 8XY4, add with carry out -/
  | addReg (x y : Reg)
  /-- 8XY5, subtract, VF = not borrow -/
  | subReg (x y : Reg)
  /-- 8XY6, shift right by one; Y is used only under P_SHIFT_SRC = VY (R122) -/
  | shr (x y : Reg)
  /-- 8XY7, reverse subtract, VF = not borrow -/
  | subn (x y : Reg)
  /-- 8XYE, shift left by one; Y is used only under P_SHIFT_SRC = VY (R122) -/
  | shl (x y : Reg)
  /-- 9XY0, skip if registers differ -/
  | sneReg (x y : Reg)
  /-- ANNN, load index -/
  | ldI (nnn : Imm12)
  /-- BNNN, jump with offset V0 -/
  | jpV0 (nnn : Imm12)
  /-- CXNN, random byte masked -/
  | rnd (x : Reg) (nn : Byte)
  /-- DXYN, draw sprite -/
  | drw (x y : Reg) (n : Nibble)
  /-- EX9E, skip if key held -/
  | skp (x : Reg)
  /-- EXA1, skip if key not held -/
  | sknp (x : Reg)
  /-- FX07, read delay timer -/
  | ldXDt (x : Reg)
  /-- FX0A, wait for key press -/
  | ldXK (x : Reg)
  /-- FX15, set delay timer -/
  | ldDtX (x : Reg)
  /-- FX18, set sound timer -/
  | ldStX (x : Reg)
  /-- FX1E, add to index -/
  | addIX (x : Reg)
  /-- FX29, point index at font glyph -/
  | ldFX (x : Reg)
  /-- FX33, store decimal digits -/
  | ldBX (x : Reg)
  /-- FX55, store registers V0 to VX -/
  | ldMemX (x : Reg)
  /-- FX65, load registers V0 to VX -/
  | ldXMem (x : Reg)
  deriving DecidableEq, Repr

end Sys2Proof
end

