-- ==== Sys2Proof/WellFormed.lean ====
section
/-!
DEFINITION. Which instructions have a word of their own. The operand types already bound every field (R81), so the
one check left is that of R85: the words 0x00E0 and 0x00EE are 00E0 and 00EE, never 0NNN.
-/

namespace Sys2Proof

/-- The check of R85 on 0NNN; every other constructor is well formed with any operands of its types. -/
def Instr.wellFormed : Instr → Bool
  | .sys nnn => nnn != 0x0E0#12 && nnn != 0x0EE#12
  | .cls => true
  | .ret => true
  | .jp _ => true
  | .call _ => true
  | .seImm _ _ => true
  | .sneImm _ _ => true
  | .seReg _ _ => true
  | .ldImm _ _ => true
  | .addImm _ _ => true
  | .ldReg _ _ => true
  | .orReg _ _ => true
  | .andReg _ _ => true
  | .xorReg _ _ => true
  | .addReg _ _ => true
  | .subReg _ _ => true
  | .shr _ _ => true
  | .subn _ _ => true
  | .shl _ _ => true
  | .sneReg _ _ => true
  | .ldI _ => true
  | .jpV0 _ => true
  | .rnd _ _ => true
  | .drw _ _ _ => true
  | .skp _ => true
  | .sknp _ => true
  | .ldXDt _ => true
  | .ldXK _ => true
  | .ldDtX _ => true
  | .ldStX _ => true
  | .addIX _ => true
  | .ldFX _ => true
  | .ldBX _ => true
  | .ldMemX _ => true
  | .ldXMem _ => true

/-- An instruction that has a word of its own (R85, R87). -/
abbrev WellFormed (i : Instr) : Prop := i.wellFormed = true

end Sys2Proof
end

