-- ==== Sys2Proof/Decode.lean ====
section
/-!
DEFINITION. Decoding and encoding (spec/30_encoding.md rules R80 to R89). The decoder is total on every word and on
every byte list; a word that is no instruction is rejected by name. After it stand the encoder and the opcode map of
R89, both written from the spec's table.
-/

namespace Sys2Proof

/-- Why a decoder gives no instruction. -/
inductive DecodeError where
  /-- The word decodes to UNKNOWN (R87). -/
  | unknownOpcode (w : Word)
  /-- Fewer than the two bytes of a word are left (R80). -/
  | truncated
  deriving DecidableEq, Repr

/-- The fields of a word (R81): class, X, Y, N, NN and NNN. -/
def opClass (w : Word) : Nibble := w.extractLsb' 12 4
/-- X, w[11:8] -/
def fieldX (w : Word) : Reg := (w.extractLsb' 8 4).toFin
/-- Y, w[7:4] -/
def fieldY (w : Word) : Reg := (w.extractLsb' 4 4).toFin
/-- N, w[3:0] -/
def fieldN (w : Word) : Nibble := w.extractLsb' 0 4
/-- NN, w[7:0] -/
def fieldNN (w : Word) : Byte := w.extractLsb' 0 8
/-- NNN, w[11:0] -/
def fieldNNN (w : Word) : Imm12 := w.extractLsb' 0 12

/-- Class 0 is matched on the whole word (R85). -/
def decodeClass0 (w : Word) : Instr :=
  if w = 0x00E0#16 then .cls
  else if w = 0x00EE#16 then .ret
  else .sys (fieldNNN w)

/-- Class 8 is matched on the low nibble (R84). -/
def decodeClass8 (w : Word) : Except DecodeError Instr :=
  match fieldN w with
  | 0x0#4 => .ok (.ldReg (fieldX w) (fieldY w))
  | 0x1#4 => .ok (.orReg (fieldX w) (fieldY w))
  | 0x2#4 => .ok (.andReg (fieldX w) (fieldY w))
  | 0x3#4 => .ok (.xorReg (fieldX w) (fieldY w))
  | 0x4#4 => .ok (.addReg (fieldX w) (fieldY w))
  | 0x5#4 => .ok (.subReg (fieldX w) (fieldY w))
  | 0x6#4 => .ok (.shr (fieldX w) (fieldY w))
  | 0x7#4 => .ok (.subn (fieldX w) (fieldY w))
  | 0xE#4 => .ok (.shl (fieldX w) (fieldY w))
  | _ => .error (.unknownOpcode w)

/-- Class E is matched on the whole low byte (R85). -/
def decodeClassE (w : Word) : Except DecodeError Instr :=
  match fieldNN w with
  | 0x9E#8 => .ok (.skp (fieldX w))
  | 0xA1#8 => .ok (.sknp (fieldX w))
  | _ => .error (.unknownOpcode w)

/-- Class F is matched on the whole low byte (R85). -/
def decodeClassF (w : Word) : Except DecodeError Instr :=
  match fieldNN w with
  | 0x07#8 => .ok (.ldXDt (fieldX w))
  | 0x0A#8 => .ok (.ldXK (fieldX w))
  | 0x15#8 => .ok (.ldDtX (fieldX w))
  | 0x18#8 => .ok (.ldStX (fieldX w))
  | 0x1E#8 => .ok (.addIX (fieldX w))
  | 0x29#8 => .ok (.ldFX (fieldX w))
  | 0x33#8 => .ok (.ldBX (fieldX w))
  | 0x55#8 => .ok (.ldMemX (fieldX w))
  | 0x65#8 => .ok (.ldXMem (fieldX w))
  | _ => .error (.unknownOpcode w)

/-- decode(w) (R84), total on all 65536 words; `strict` is P_STRICT_5_9 (R86). -/
def decodeWord (strict : Bool) (w : Word) : Except DecodeError Instr :=
  match opClass w with
  | 0x0#4 => .ok (decodeClass0 w)
  | 0x1#4 => .ok (.jp (fieldNNN w))
  | 0x2#4 => .ok (.call (fieldNNN w))
  | 0x3#4 => .ok (.seImm (fieldX w) (fieldNN w))
  | 0x4#4 => .ok (.sneImm (fieldX w) (fieldNN w))
  | 0x5#4 =>
    if fieldN w = 0 ∨ strict = false then .ok (.seReg (fieldX w) (fieldY w)) else .error (.unknownOpcode w)
  | 0x6#4 => .ok (.ldImm (fieldX w) (fieldNN w))
  | 0x7#4 => .ok (.addImm (fieldX w) (fieldNN w))
  | 0x8#4 => decodeClass8 w
  | 0x9#4 =>
    if fieldN w = 0 ∨ strict = false then .ok (.sneReg (fieldX w) (fieldY w)) else .error (.unknownOpcode w)
  | 0xA#4 => .ok (.ldI (fieldNNN w))
  | 0xB#4 => .ok (.jpV0 (fieldNNN w))
  | 0xC#4 => .ok (.rnd (fieldX w) (fieldNN w))
  | 0xD#4 => .ok (.drw (fieldX w) (fieldY w) (fieldN w))
  | 0xE#4 => decodeClassE w
  | _ => decodeClassF w

/-- The word of two bytes in memory order: the byte at the lower address is bits 15:8 (R58). -/
def wordOfBytes (hi lo : Byte) : Word := hi ++ lo

/-- The two bytes of a word in memory order (R58). -/
def bytesOfWord (w : Word) : List Byte := [w.extractLsb' 8 8, w.extractLsb' 0 8]

/-- Decoding from a byte list: one instruction is always two bytes, big-endian (R58, R80); the rest is handed back. -/
def decodeBytes (strict : Bool) : List Byte → Except DecodeError (Instr × List Byte)
  | hi :: lo :: rest =>
    match decodeWord strict (wordOfBytes hi lo) with
    | .ok i => .ok (i, rest)
    | .error e => .error e
  | _ => .error .truncated

/-- The instruction whose opcode-table bits are `w`, decoded with the default P_STRICT_5_9: the bits above `nbits` are
0, and the bytes are laid out as the core stores them. -/
def decodeTableWord (nbits w : Nat) : Option Instr :=
  match decodeBytes true (bytesOfWord (BitVec.ofNat 16 (w % 2 ^ nbits))) with
  | .ok (i, _) => some i
  | .error _ => none

/-- A word of class `c` with a 12-bit immediate. -/
def wordNNN (c : Nibble) (nnn : Imm12) : Word := c ++ nnn

/-- A register number as the bits of an X or Y field (R81). -/
def regBits (x : Reg) : Nibble := BitVec.ofFin x

/-- A word of class `c` with a register and an 8-bit immediate or secondary opcode. -/
def wordXNN (c : Nibble) (x : Reg) (nn : Byte) : Word := c ++ regBits x ++ nn

/-- A word of class `c` with two registers and a 4-bit immediate or secondary opcode. -/
def wordXYN (c : Nibble) (x y : Reg) (n : Nibble) : Word := c ++ regBits x ++ regBits y ++ n

/-- The word of an instruction (R89). A word that decodes to the instruction only under P_STRICT_5_9 = false is not
the one given: for 5XY0 and 9XY0 the low nibble is 0. -/
def encode : Instr → Word
  | .cls => 0x00E0#16
  | .ret => 0x00EE#16
  | .sys nnn => wordNNN 0x0 nnn
  | .jp nnn => wordNNN 0x1 nnn
  | .call nnn => wordNNN 0x2 nnn
  | .seImm x nn => wordXNN 0x3 x nn
  | .sneImm x nn => wordXNN 0x4 x nn
  | .seReg x y => wordXYN 0x5 x y 0x0
  | .ldImm x nn => wordXNN 0x6 x nn
  | .addImm x nn => wordXNN 0x7 x nn
  | .ldReg x y => wordXYN 0x8 x y 0x0
  | .orReg x y => wordXYN 0x8 x y 0x1
  | .andReg x y => wordXYN 0x8 x y 0x2
  | .xorReg x y => wordXYN 0x8 x y 0x3
  | .addReg x y => wordXYN 0x8 x y 0x4
  | .subReg x y => wordXYN 0x8 x y 0x5
  | .shr x y => wordXYN 0x8 x y 0x6
  | .subn x y => wordXYN 0x8 x y 0x7
  | .shl x y => wordXYN 0x8 x y 0xE
  | .sneReg x y => wordXYN 0x9 x y 0x0
  | .ldI nnn => wordNNN 0xA nnn
  | .jpV0 nnn => wordNNN 0xB nnn
  | .rnd x nn => wordXNN 0xC x nn
  | .drw x y n => wordXYN 0xD x y n
  | .skp x => wordXNN 0xE x 0x9E
  | .sknp x => wordXNN 0xE x 0xA1
  | .ldXDt x => wordXNN 0xF x 0x07
  | .ldXK x => wordXNN 0xF x 0x0A
  | .ldDtX x => wordXNN 0xF x 0x15
  | .ldStX x => wordXNN 0xF x 0x18
  | .addIX x => wordXNN 0xF x 0x1E
  | .ldFX x => wordXNN 0xF x 0x29
  | .ldBX x => wordXNN 0xF x 0x33
  | .ldMemX x => wordXNN 0xF x 0x55
  | .ldXMem x => wordXNN 0xF x 0x65

/-- One row of the opcode map (R89): which bits are fixed, and their value. -/
structure OpcodeRow where
  mask : Word
  fixed : Word
  deriving DecidableEq, Repr

/-- The row of the opcode map an instruction belongs to (R89). -/
def opcodeRow : Instr → OpcodeRow
  | .cls => ⟨0xFFFF, 0x00E0⟩
  | .ret => ⟨0xFFFF, 0x00EE⟩
  | .sys _ => ⟨0xF000, 0x0000⟩
  | .jp _ => ⟨0xF000, 0x1000⟩
  | .call _ => ⟨0xF000, 0x2000⟩
  | .seImm _ _ => ⟨0xF000, 0x3000⟩
  | .sneImm _ _ => ⟨0xF000, 0x4000⟩
  | .seReg _ _ => ⟨0xF00F, 0x5000⟩
  | .ldImm _ _ => ⟨0xF000, 0x6000⟩
  | .addImm _ _ => ⟨0xF000, 0x7000⟩
  | .ldReg _ _ => ⟨0xF00F, 0x8000⟩
  | .orReg _ _ => ⟨0xF00F, 0x8001⟩
  | .andReg _ _ => ⟨0xF00F, 0x8002⟩
  | .xorReg _ _ => ⟨0xF00F, 0x8003⟩
  | .addReg _ _ => ⟨0xF00F, 0x8004⟩
  | .subReg _ _ => ⟨0xF00F, 0x8005⟩
  | .shr _ _ => ⟨0xF00F, 0x8006⟩
  | .subn _ _ => ⟨0xF00F, 0x8007⟩
  | .shl _ _ => ⟨0xF00F, 0x800E⟩
  | .sneReg _ _ => ⟨0xF00F, 0x9000⟩
  | .ldI _ => ⟨0xF000, 0xA000⟩
  | .jpV0 _ => ⟨0xF000, 0xB000⟩
  | .rnd _ _ => ⟨0xF000, 0xC000⟩
  | .drw _ _ _ => ⟨0xF000, 0xD000⟩
  | .skp _ => ⟨0xF0FF, 0xE09E⟩
  | .sknp _ => ⟨0xF0FF, 0xE0A1⟩
  | .ldXDt _ => ⟨0xF0FF, 0xF007⟩
  | .ldXK _ => ⟨0xF0FF, 0xF00A⟩
  | .ldDtX _ => ⟨0xF0FF, 0xF015⟩
  | .ldStX _ => ⟨0xF0FF, 0xF018⟩
  | .addIX _ => ⟨0xF0FF, 0xF01E⟩
  | .ldFX _ => ⟨0xF0FF, 0xF029⟩
  | .ldBX _ => ⟨0xF0FF, 0xF033⟩
  | .ldMemX _ => ⟨0xF0FF, 0xF055⟩
  | .ldXMem _ => ⟨0xF0FF, 0xF065⟩

/-- UNKNOWN, as R87's table lists the words; `strict` is P_STRICT_5_9. -/
def unknownWord (strict : Bool) (w : Word) : Bool :=
  match opClass w with
  | 0x5#4 => strict && fieldN w != 0
  | 0x8#4 => [0x8#4, 0x9#4, 0xA#4, 0xB#4, 0xC#4, 0xD#4, 0xF#4].contains (fieldN w)
  | 0x9#4 => strict && fieldN w != 0
  | 0xE#4 => !([0x9E#8, 0xA1#8].contains (fieldNN w))
  | 0xF#4 => !([0x07#8, 0x0A#8, 0x15#8, 0x18#8, 0x1E#8, 0x29#8, 0x33#8, 0x55#8, 0x65#8].contains (fieldNN w))
  | _ => false

end Sys2Proof
end

