-- ==== Sys2Proof/Config.lean ====
section
/-!
DEFINITION. What is fixed when the core is constructed: the configuration parameters of spec/00_scope.md rule R9,
each with every value the rule lists, and the one free value of the core, the random byte of CXNN (rule R135).
The default of each parameter stands in Machine/Defaults.lean.
-/

namespace Sys2Proof

/-- P_ADDR_POLICY: what an access to an address of 0x1000 or more does (R53). -/
inductive AddrPolicy where
  | fault
  | wrap12
  | clamp
  deriving DecidableEq, Repr

/-- P_FONT_WRITE: what a store into 0x000-0x04F does (R55). -/
inductive FontWrite where
  | fault
  | ignore
  | write
  deriving DecidableEq, Repr

/-- P_SHIFT_SRC: the register 8XY6 and 8XYE shift (R122). -/
inductive ShiftSrc where
  | vx
  | vy
  deriving DecidableEq, Repr

/-- P_ALU_ORDER: the order of the VF write and the V[X] write in 8XY4 to 8XYE (R121). -/
inductive AluOrder where
  | sequential
  | flagLast
  deriving DecidableEq, Repr

/-- P_SYS_POLICY: what 0NNN does (R210). -/
inductive SysPolicy where
  | nop
  | fatal
  deriving DecidableEq, Repr

/-- P_KEY_RANGE: what EX9E and EXA1 do when V[X] > 0xF (R190). -/
inductive KeyRange where
  | fault
  | mask4
  | notHeld
  deriving DecidableEq, Repr

/-- The fontset P_FONT: 16 glyphs of 5 bytes (R57). -/
abbrev Font := Vector Byte 80

/-- The configuration parameters (R9). They are chosen at construction and no transaction changes them. -/
structure Config where
  /-- P_ADDR_POLICY -/
  addrPolicy : AddrPolicy
  /-- P_FONT_WRITE -/
  fontWrite : FontWrite
  /-- P_FONT -/
  font : Font
  /-- P_SHIFT_SRC -/
  shiftSrc : ShiftSrc
  /-- P_ALU_ORDER -/
  aluOrder : AluOrder
  /-- P_DRAW_CLEARS_VF -/
  drawClearsVF : Bool
  /-- P_SYS_POLICY -/
  sysPolicy : SysPolicy
  /-- P_STRICT_5_9 -/
  strict59 : Bool
  /-- P_KEY_RANGE -/
  keyRange : KeyRange
  /-- P_V_INIT -/
  vInit : Vector Byte 16
  /-- P_DT_INIT -/
  dtInit : Byte
  /-- P_ST_INIT -/
  stInit : Byte
  deriving DecidableEq, Repr

/-- draw_rand() (R135): the byte the environment supplies for the draw numbered `n`. It has no body: nothing is known
of any of its values, and each CXNN takes the next number, so a claim holds for every byte. Log entry 1; safe. -/
opaque Config.drawRand (n : Nat) : Byte

end Sys2Proof
end

