-- ==== Sys2Proof/Machine/Defaults.lean ====
section
/-!
DEFINITION. The fixed sizes of spec/00_scope.md rule R8 and the default of every configuration parameter of rule R9.
-/

namespace Sys2Proof.Machine

/-- MEM_SIZE, the number of memory cells (R8, R50). -/
def memSize : Nat := 0x1000

/-- FONT_SIZE: the font region is 0x000 to 0x04F (R8, R56). -/
def fontSize : Nat := 0x50

/-- PROGRAM_BASE, where a program is loaded and the first fetch happens (R8, R260, R262). -/
def programBase : Nat := 0x200

/-- MAX_PROGRAM_LEN (R8, R261; conflict C1). -/
def maxProgramLen : Nat := 0xE00

/-- STACK_DEPTH, the number of stack entries (R8, R27). -/
def stackDepth : Nat := 16

/-- The default P_FONT (R57), glyph by glyph. The bytes are PRESUMED: the spec marks them as general knowledge
(log entry 2). -/
def defaultFont : Font :=
  (#v[0xF0, 0x90, 0x90, 0x90, 0xF0,  0x20, 0x60, 0x20, 0x20, 0x70,
      0xF0, 0x10, 0xF0, 0x80, 0xF0,  0xF0, 0x10, 0xF0, 0x10, 0xF0] : Vector Byte 20)
  ++ (#v[0x90, 0x90, 0xF0, 0x10, 0x10,  0xF0, 0x80, 0xF0, 0x10, 0xF0,
      0xF0, 0x80, 0xF0, 0x90, 0xF0,  0xF0, 0x10, 0x20, 0x40, 0x40] : Vector Byte 20)
  ++ (#v[0xF0, 0x90, 0xF0, 0x90, 0xF0,  0xF0, 0x90, 0xF0, 0x10, 0xF0,
      0xF0, 0x90, 0xF0, 0x90, 0x90,  0xE0, 0x90, 0xE0, 0x90, 0xE0] : Vector Byte 20)
  ++ (#v[0xF0, 0x80, 0x80, 0x80, 0xF0,  0xE0, 0x90, 0x90, 0x90, 0xE0,
      0xF0, 0x80, 0xF0, 0x80, 0xF0,  0xF0, 0x80, 0xF0, 0x80, 0x80] : Vector Byte 20)

/-- The default column of R9. P_V_INIT, P_DT_INIT and P_ST_INIT are OPEN in the spec; the model names 0 for each
(DESIGN CHOICE, log entries 3 and 4; unsafe for a claim that rests on the 0). -/
def defaultConfig : Config where
  addrPolicy := .fault
  fontWrite := .fault
  font := defaultFont
  shiftSrc := .vx
  aluOrder := .sequential
  drawClearsVF := false
  sysPolicy := .nop
  strict59 := true
  keyRange := .fault
  vInit := Vector.replicate 16 0
  dtInit := 0
  stInit := 0

end Sys2Proof.Machine
end

