-- ==== Sys2Proof/Machine/Memory.lean ====
section
/-!
DEFINITION. The memory array (spec/20_memory.md rules R50 and R56) as a list of cells in one canonical form.
An address that is not listed reads as after construction: the font at 0x000-0x04F, 0 everywhere else (R39, R56).
-/

namespace Sys2Proof.Machine

/-- Memory: the cells that differ from their value after construction, at strictly rising addresses. -/
abbrev Memory := List Host.Cell

/-- What an address that is not listed reads as (R39, R56): its value after construction with an empty image. -/
def background (font : Font) (a : Nat) : Byte := font[a]?.getD 0

/-- The byte at address `a`. -/
def readCell (font : Font) (a : Nat) : Memory → Byte
  | [] => background font a
  | (a', b) :: rest => if a' = a then b else readCell font a rest

/-- A cell in front of a list, left out where it holds what an unlisted address reads as. -/
def consCell (font : Font) (a : Nat) (b : Byte) (rest : Memory) : Memory :=
  if b = background font a then rest else (a, b) :: rest

/-- Memory with byte `b` at address `a`, in canonical form again. -/
def writeCell (font : Font) (a : Nat) (b : Byte) : Memory → Memory
  | [] => consCell font a b []
  | (a', b') :: rest =>
    if a < a' then consCell font a b ((a', b') :: rest)
    else if a = a' then consCell font a b rest
    else (a', b') :: writeCell font a b rest

/-- Memory after the listed stores, done in order. -/
def writeCells (font : Font) : List Host.Cell → Memory → Memory
  | [], m => m
  | (a, b) :: cells, m => writeCells font cells (writeCell font a b m)

/-- `bytes` at consecutive addresses from `a` on, as the stores that put them there. -/
def cellsFrom (a : Nat) : List Byte → List Host.Cell
  | [] => []
  | b :: bs => (a, b) :: cellsFrom (a + 1) bs

/-- The canonical form: every listed address is at or above `low` and rising, exists (R50), and holds something else
than an unlisted address reads as. -/
def canonicalFrom (font : Font) (low : Nat) : Memory → Bool
  | [] => true
  | (a, b) :: rest =>
    decide (low ≤ a) && decide (a < memSize) && decide (b ≠ background font a) && canonicalFrom font (a + 1) rest

/-- Memory is in canonical form, so that equal memories are equal lists. -/
def Memory.wf (font : Font) (m : Memory) : Bool := canonicalFrom font 0 m

end Sys2Proof.Machine
end

