-- ==== Sys2Proof/Machine/State.lean ====
section
/-!
DEFINITION. The state of the core (spec/10_state.md, rules R20 to R39), the reasons a step can stop, and the state
after construction. Beside the spec's own elements it holds three fields of the model: the configuration the core was
built with (R9), the number of random bytes drawn so far (R135) and the trace of diagnostics (R230).
-/

namespace Sys2Proof.Machine

/-- The causes of the Halted run state (R221), less code 0 (NONE, no cause: `none` in the halt record). -/
inductive Cause where
  | fetchRange
  | memRange
  | fontWrite
  | stackOverflow
  | stackUnderflow
  | keyRange
  | sysUnimplemented
  | stopped
  deriving DecidableEq, Repr

/-- The run state (R33). -/
inductive RunState where
  /-- the next step fetches and executes a word -/
  | ready
  /-- an FX0A with X = `x` waits for a key-down event (R196) -/
  | waitKey (x : Reg)
  /-- the core has stopped for good (R220, R226) -/
  | halted (cause : Cause)
  deriving DecidableEq, Repr

/-- The halt record (R34). -/
structure HaltRecord where
  /-- halt_cause; `none` is code 0, NONE -/
  cause : Option Cause
  /-- halt_pc -/
  pc : Word
  /-- halt_word -/
  word : Word
  /-- halt_addr -/
  addr : Word
  deriving DecidableEq, Repr

/-- The halt record before any halt: no cause, all fields 0 (R39). -/
def HaltRecord.empty : HaltRecord := { cause := none, pc := 0, word := 0, addr := 0 }

/-- The diagnostics (R231). -/
inductive DiagKind where
  | unknownOpcode
  | unimplemented
  deriving DecidableEq, Repr

/-- One diagnostic event: its name, the word and the word's address (R231). -/
structure Diag where
  kind : DiagKind
  word : Word
  addr : Word
  deriving DecidableEq, Repr

/-- The framebuffer: 32 rows of 64 one-bit pixels, `fb[row][col]` (R30). -/
abbrev Framebuffer := Vector (Vector Bool 64) 32

/-- The state of the core (R20 to R39), and the model's own fields `cfg`, `draws` and `diags`. -/
structure State where
  /-- V0 to VF (R20) -/
  v : Vector Byte 16
  /-- I (R23) -/
  index : Word
  /-- pc (R24) -/
  pc : Word
  /-- sp, the next free slot; its reachable values are 0 to 16 (R28) -/
  sp : Byte
  /-- the return stack (R27) -/
  stack : Vector Word 16
  /-- DT, delay_timer (R29) -/
  dt : Byte
  /-- ST, sound_timer (R29) -/
  st : Byte
  /-- fb (R30) -/
  fb : Framebuffer
  /-- redraw, the framebuffer dirty flag (R31) -/
  redraw : Bool
  /-- key[0x0] to key[0xF], held or not (R32) -/
  key : Vector Bool 16
  /-- run (R33) -/
  run : RunState
  /-- the halt record (R34) -/
  halt : HaltRecord
  /-- mem[0x000] to mem[0xFFF] (R38, R50) -/
  mem : Memory
  /-- the model's: the configuration parameters the core was built with (R9; log entry 5) -/
  cfg : Config
  /-- the model's: how many random bytes CXNN has drawn (R135; log entry 1) -/
  draws : Nat
  /-- the model's: the output trace of diagnostics, oldest first (R230; log entry 6) -/
  diags : List Diag
  deriving DecidableEq, Repr

/-- The faults of a step, where the model stops because the spec gives the state no meaning. A fault OF THE SPEC is not
one of these: it halts the core, which is a next state (R222). -/
inductive Fault where
  /-- Raised by 2NNN and 00EE where sp > 16, a state R28 excludes and no run reaches. Safe: the model stops where the
  spec says nothing (log entry 7). -/
  | stackPointerOutOfRange
  deriving DecidableEq, Repr

/-- The refusals of a step. -/
inductive Refusal where
  /-- Raised by an arm of exec that has no meaning yet; no arm of this model does. Safe: the model stops. -/
  | notModelled (mnemonic : String)
  deriving DecidableEq, Repr

/-- What one instruction or one step answers. -/
abbrev Result := Host.Outcome State Fault Refusal

/-- The state after construction with an empty image (R39, R260): `cfg` gives P_V_INIT, P_DT_INIT, P_ST_INIT and
P_FONT, and `draws` is the number of the environment's next random byte. -/
def State.initial (cfg : Config) (draws : Nat) : State where
  v := cfg.vInit
  index := 0
  pc := BitVec.ofNat 16 programBase
  sp := 0
  stack := Vector.replicate 16 0
  dt := cfg.dtInit
  st := cfg.stInit
  fb := Vector.replicate 32 (Vector.replicate 64 false)
  redraw := false
  key := Vector.replicate 16 false
  run := .ready
  halt := HaltRecord.empty
  mem := []
  cfg := cfg
  draws := draws
  diags := []

/-- The machine right after reset: construction, the only reset (R262), with the default parameters and nothing
loaded. -/
def State.reset : State := State.initial defaultConfig 0

end Sys2Proof.Machine
end

