-- ==== Sys2Proof/Machine/Ops.lean ====
section
/-!
DEFINITION. The operations every meaning is built from: registers, pc, memory accesses with their checks
(spec/20_memory.md rules R52 to R55, R62), the return stack (R27, R28), and taking a fault (R14, R90, R222). There is
no return from a fault (R226): Halted is final, and only a new construction goes on.
-/

namespace Sys2Proof.Machine

/-- A fault an instruction or a fetch raises: `raise F(info)` (R14). -/
structure Raised where
  cause : Cause
  info : Nat
  deriving DecidableEq, Repr

/-! ### Registers (R12, R20, R23, R24) -/

/-- V[x] -/
def State.getV (s : State) (x : Reg) : Byte := s.v.get x

/-- V[x] <- b -/
def State.setV (s : State) (x : Reg) (b : Byte) : State := { s with v := s.v.set x.val b x.isLt }

/-- All sixteen registers replaced, for a write of several at once. -/
def State.setRegs (s : State) (v : Vector Byte 16) : State := { s with v := v }

/-- pc <- a -/
def State.setPc (s : State) (a : Word) : State := { s with pc := a }

/-- I <- a -/
def State.setIndex (s : State) (a : Word) : State := { s with index := a }

/-- DT <- b -/
def State.setDt (s : State) (b : Byte) : State := { s with dt := b }

/-- ST <- b -/
def State.setSt (s : State) (b : Byte) : State := { s with st := b }

/-- run <- r -/
def State.setRun (s : State) (r : RunState) : State := { s with run := r }

/-- The framebuffer of a draw, which always sets redraw (R31). -/
def State.setFb (s : State) (fb : Framebuffer) : State := { s with fb := fb, redraw := true }

/-- key[k] <- held -/
def State.setKey (s : State) (k : Key) (held : Bool) : State := { s with key := s.key.set k.val held k.isLt }

/-- Memory replaced. -/
def State.setMem (s : State) (m : Memory) : State := { s with mem := m }

/-- diag D(w, a): the event joins the output trace and changes no state element of the core (R230). -/
def State.emit (s : State) (d : Diag) : State := { s with diags := s.diags ++ [d] }

/-- The environment has supplied one more byte (R135). -/
def State.drawn (s : State) : State := { s with draws := s.draws + 1 }

/-- The pc advance of the fetch, and the skip primitive (R24, R90, R100): pc <- (pc + 2) mod 65536. -/
def State.advance (s : State) : State := s.setPc (s.pc + 2)

/-- skip() (R100). -/
def State.skipIf (s : State) (c : Bool) : State := if c then s.advance else s

/-! ### The return stack (R27, R28) -/

/-- stack[k], for the slot numbers a push writes and a pop reads (0 to 15). -/
def State.stackAt (s : State) (k : Nat) : Word := s.stack[k]?.getD 0

/-- Push (R103): stack[sp] <- a, then sp <- sp + 1. -/
def State.push (s : State) (a : Word) : State :=
  { s with stack := s.stack.setIfInBounds s.sp.toNat a, sp := s.sp + 1 }

/-- Pop (R101): sp <- sp - 1; the popped entry keeps its value. -/
def State.drop (s : State) : State := { s with sp := s.sp - 1 }

/-! ### Faults (R14, R90, R222) -/

/-- Fault entry (R222), the core's way of taking an exception: nothing of the step is kept, `s0` being the state before
it; the run state becomes Halted and the halt record is written. `a` is the address of the word `w`. -/
def takeFault (r : Raised) (a w : Word) (s0 : State) : State :=
  { s0 with
    run := .halted r.cause
    halt :=
      { cause := some r.cause
        pc := a
        word := if r.cause = .fetchRange then 0 else w
        addr := BitVec.ofNat 16 r.info } }

/-- The end of an instruction that can raise: its word is `w`, it was fetched in state `s0`, and `r` is what its
pseudocode gives. A raise is taken (R90, R222). -/
def conclude (w : Word) (s0 : State) (r : Except Raised State) : Result :=
  match r with
  | .ok s => .next s
  | .error e => .next (takeFault e s0.pc w s0)

/-! ### Memory accesses (R52 to R55) -/

/-- What an access is for (R53). -/
inductive AccessKind where
  | fetch
  | data
  deriving DecidableEq, Repr

/-- The fault an access outside memory raises (R53). -/
def rangeCause : AccessKind → Cause
  | .fetch => .fetchRange
  | .data => .memRange

/-- Addr(a, kind) (R53), on an address that is an unbounded natural number (R52). -/
def effectiveAddr (p : AddrPolicy) (kind : AccessKind) (a : Nat) : Except Raised Nat :=
  if a < memSize then .ok a
  else
    match p with
    | .fault => .error { cause := rangeCause kind, info := a }
    | .wrap12 => .ok (a % memSize)
    | .clamp => .ok (memSize - 1)

/-- mem[e], for an address that exists. -/
def State.peek (s : State) (e : Nat) : Byte := readCell s.cfg.font e s.mem

/-- MemRead(a, 1) (R54). -/
def memRead (s : State) (a : Nat) : Except Raised Byte :=
  match effectiveAddr s.cfg.addrPolicy .data a with
  | .error r => .error r
  | .ok e => .ok (s.peek e)

/-- `n` reads at ascending addresses from `a` on, the address checks in that order (R59, R61). -/
def loadBytes (s : State) (a : Nat) : Nat → Except Raised (List Byte)
  | 0 => .ok []
  | n + 1 =>
    match memRead s a with
    | .error r => .error r
    | .ok b =>
      match loadBytes s (a + 1) n with
      | .error r => .error r
      | .ok bs => .ok (b :: bs)

/-- The checks of MemWrite(a, 1, v) (R55): the effective address, or none where P_FONT_WRITE = IGNORE drops the
store. -/
def storeTarget (cfg : Config) (a : Nat) : Except Raised (Option Nat) :=
  match effectiveAddr cfg.addrPolicy .data a with
  | .error r => .error r
  | .ok e =>
    if e < fontSize then
      match cfg.fontWrite with
      | .fault => .error { cause := .fontWrite, info := e }
      | .ignore => .ok none
      | .write => .ok (some e)
    else .ok (some e)

/-- The stores of `bytes` at ascending addresses from `a` on, every address checked, in that order, before any is
written (R59, R61): the cells they write, in order. -/
def storeCells (cfg : Config) (a : Nat) : List Byte → Except Raised (List Host.Cell)
  | [] => .ok []
  | b :: bs =>
    match storeTarget cfg a with
    | .error r => .error r
    | .ok e =>
      match storeCells cfg (a + 1) bs with
      | .error r => .error r
      | .ok cells =>
        match e with
        | none => .ok cells
        | some e => .ok ((e, b) :: cells)

/-- The state after the stores of `bytes` from `a` on. -/
def storeBytes (s : State) (a : Nat) (bytes : List Byte) : Except Raised State :=
  match storeCells s.cfg a bytes with
  | .error r => .error r
  | .ok cells => .ok (s.setMem (writeCells s.cfg.font cells s.mem))

/-! ### Instruction fetch (R62) -/

/-- Fetch(pc) (R62): both addresses are checked, pc + 1 without reduction modulo 65536; the byte at the lower address
is bits 15:8. -/
def fetch (s : State) : Except Raised Word :=
  match effectiveAddr s.cfg.addrPolicy .fetch s.pc.toNat with
  | .error r => .error r
  | .ok e0 =>
    match effectiveAddr s.cfg.addrPolicy .fetch (s.pc.toNat + 1) with
    | .error r => .error r
    | .ok e1 => .ok (wordOfBytes (s.peek e0) (s.peek e1))

/-- Memory with the word `w` where `fetch` reads its next word; unchanged where the fetch itself would fault. -/
def placeWord (s : State) (w : Word) : State :=
  match effectiveAddr s.cfg.addrPolicy .fetch s.pc.toNat, effectiveAddr s.cfg.addrPolicy .fetch (s.pc.toNat + 1) with
  | .ok e0, .ok e1 =>
    s.setMem (writeCells s.cfg.font [(e0, w.extractLsb' 8 8), (e1, w.extractLsb' 0 8)] s.mem)
  | _, _ => s

end Sys2Proof.Machine
end

