-- ==== Sys2Proof/Machine/Flags.lean ====
section
/-!
DEFINITION. Every flag computation of the core: the value VF receives from 8XY4 to 8XYE (spec/41_alu.md rules R121,
R129 to R133), and the order in which VF and V[X] are written (R121). VF is the only flag (R36).
-/

namespace Sys2Proof.Machine

/-- A Boolean written into a register becomes 1 or 0 (R10). -/
def boolByte (c : Bool) : Byte := if c then 1 else 0

/-- The carry out of bit 7 (R129): 1 if the true sum exceeds 255. -/
def carryFlag (a b : Byte) : Byte := boolByte (decide (a.toNat + b.toNat > 255))

/-- The flag of a - b (R130, R132): 1 when no borrow occurs. -/
def notBorrowFlag (a b : Byte) : Byte := boolByte (decide (a.toNat ≥ b.toNat))

/-- The bit a shift right by one shifts out (R131). -/
def lowBitFlag (a : Byte) : Byte := a &&& 1

/-- The bit a shift left by one shifts out (R133). -/
def highBitFlag (a : Byte) : Byte := boolByte (a &&& 0x80 != 0)

/-- The two writes of a flag-writing ALU instruction in the order P_ALU_ORDER selects (R121). `flag` and `result` say
what the two statements compute from the state they read. SEQUENTIAL writes VF and then computes V[x] from the state
with that VF; FLAG_LAST computes both from the operands as they were, and writes VF last. -/
def writeFlagged (s : State) (x : Reg) (flag result : State → Byte) : State :=
  match s.cfg.aluOrder with
  | .sequential =>
    let s1 := s.setV VF (flag s)
    s1.setV x (result s1)
  | .flagLast => (s.setV x (result s)).setV VF (flag s)

end Sys2Proof.Machine
end

