-- ==== Sys2Proof/Machine/Operands.lean ====
section
/-!
DEFINITION. Every operand form beside the plain register and immediate (spec/30_encoding.md rules R82, R83): the
12-bit address, the shift operand (R122), the key index (R190), the register block of FX55 and FX65 (R154, R155) and
the decimal digits of FX33 (R153).
-/

namespace Sys2Proof.Machine

/-- zext_16(NNN) (R82). -/
def zext16 (nnn : Imm12) : Word := nnn.setWidth 16

/-- A register's byte as a 16-bit addend (R10, R108, R151, R152). -/
def byteToWord (b : Byte) : Word := b.setWidth 16

/-- The register 8XY6 and 8XYE shift, selected by P_SHIFT_SRC (R122). -/
def shiftOperand (cfg : Config) (x y : Reg) : Reg :=
  match cfg.shiftSrc with
  | .vx => x
  | .vy => y

/-- held(v) (R190): whether the key V[X] names is held, P_KEY_RANGE deciding where v > 0xF. -/
def held (s : State) (v : Byte) : Except Raised Bool :=
  if v.toNat ≤ 0xF then .ok (s.key.get (Fin.ofNat 16 v.toNat))
  else
    match s.cfg.keyRange with
    | .fault => .error { cause := .keyRange, info := v.toNat }
    | .mask4 => .ok (s.key.get (Fin.ofNat 16 (v &&& 0x0F).toNat))
    | .notHeld => .ok false

/-- The registers V0 to V[x], the block FX55 stores (R82, R154). -/
def blockRegs (s : State) (x : Reg) : List Byte := s.v.toList.take (x.val + 1)

/-- V[k], V[k+1], ... <- the bytes in order, the writes of FX65 (R155). -/
def setBlock (k : Nat) : List Byte → Vector Byte 16 → Vector Byte 16
  | [], v => v
  | b :: bs, v => setBlock (k + 1) bs (v.setIfInBounds k b)

/-- The number of registers of the block V0 to V[x], which FX55 and FX65 add to I (R82, R154, R155). -/
def blockSize (x : Reg) : Nat := x.val + 1

/-- The three decimal digits of FX33 (R153). -/
def decimalDigits (v : Byte) : List Byte :=
  [BitVec.ofNat 8 (v.toNat / 100), BitVec.ofNat 8 (v.toNat / 10 % 10), BitVec.ofNat 8 (v.toNat % 10)]

end Sys2Proof.Machine
end

