-- ==== Sys2Proof/Machine/Alu.lean ====
section
/-!
DEFINITION. Register loads, the ALU and the random byte (spec/41_alu.md rules R120 to R136). All arithmetic is modulo
256 (R120), none of these instructions can fault.
-/

namespace Sys2Proof.Machine

/-- 6XNN (R123). -/
def execLdImm (x : Reg) (nn : Byte) (s : State) : Result := .next (s.advance.setV x nn)

/-- 7XNN (R124): no flag. -/
def execAddImm (x : Reg) (nn : Byte) (s : State) : Result := .next (s.advance.setV x (s.getV x + nn))

/-- 8XY0 (R125). -/
def execLdReg (x y : Reg) (s : State) : Result := .next (s.advance.setV x (s.getV y))

/-- 8XY1 (R126). -/
def execOrReg (x y : Reg) (s : State) : Result := .next (s.advance.setV x (s.getV x ||| s.getV y))

/-- 8XY2 (R127). -/
def execAndReg (x y : Reg) (s : State) : Result := .next (s.advance.setV x (s.getV x &&& s.getV y))

/-- 8XY3 (R128). -/
def execXorReg (x y : Reg) (s : State) : Result := .next (s.advance.setV x (s.getV x ^^^ s.getV y))

/-- 8XY4 (R129): under both orders the sum is of the operands before any write. -/
def execAddReg (x y : Reg) (s : State) : Result :=
  .next (writeFlagged s.advance x (fun t => carryFlag (t.getV x) (t.getV y)) (fun _ => s.getV x + s.getV y))

/-- 8XY5 (R130). -/
def execSubReg (x y : Reg) (s : State) : Result :=
  .next (writeFlagged s.advance x (fun t => notBorrowFlag (t.getV x) (t.getV y)) (fun t => t.getV x - t.getV y))

/-- 8XY6 (R131), its operand selected by P_SHIFT_SRC (R122). -/
def execShr (x y : Reg) (s : State) : Result :=
  .next (writeFlagged s.advance x (fun t => lowBitFlag (t.getV (shiftOperand s.cfg x y)))
    (fun t => t.getV (shiftOperand s.cfg x y) >>> 1))

/-- 8XY7 (R132). -/
def execSubn (x y : Reg) (s : State) : Result :=
  .next (writeFlagged s.advance x (fun t => notBorrowFlag (t.getV y) (t.getV x)) (fun t => t.getV y - t.getV x))

/-- 8XYE (R133), its operand selected by P_SHIFT_SRC (R122). -/
def execShl (x y : Reg) (s : State) : Result :=
  .next (writeFlagged s.advance x (fun t => highBitFlag (t.getV (shiftOperand s.cfg x y)))
    (fun t => t.getV (shiftOperand s.cfg x y) <<< 1))

/-- CXNN (R134): the byte is free, the next one the environment supplies (R135; log entry 1). -/
def execRnd (x : Reg) (nn : Byte) (s : State) : Result :=
  .next (s.advance.drawn.setV x (Config.drawRand s.draws &&& nn))

end Sys2Proof.Machine
end

