-- ==== Sys2Proof/Machine/ControlFlow.lean ====
section
/-!
DEFINITION. Jumps, calls, returns and the register skips (spec/40_control_flow.md rules R100 to R109). Each meaning
starts from the state before the fetch and makes the fetch's pc advance itself (R24, R90).
-/

namespace Sys2Proof.Machine

/-- 00EE (R101). An sp above 16 is no state of the core (R28; log entry 7). -/
def execRet (s : State) : Result :=
  if s.sp.toNat > stackDepth then .fault .stackPointerOutOfRange
  else
    conclude (encode .ret) s
      (if s.sp = 0 then .error { cause := .stackUnderflow, info := 0 }
       else .ok ((s.advance.setPc (s.stackAt (s.sp.toNat - 1))).drop))

/-- 1NNN (R102). -/
def execJp (nnn : Imm12) (s : State) : Result := .next (s.advance.setPc (zext16 nnn))

/-- 2NNN (R103): the pc pushed is the advanced one. An sp above 16 is no state of the core (R28; log entry 7). -/
def execCall (nnn : Imm12) (s : State) : Result :=
  if s.sp.toNat > stackDepth then .fault .stackPointerOutOfRange
  else
    conclude (encode (.call nnn)) s
      (if s.sp.toNat = stackDepth then .error { cause := .stackOverflow, info := 0 }
       else .ok ((s.advance.push s.advance.pc).setPc (zext16 nnn)))

/-- 3XNN (R104). -/
def execSeImm (x : Reg) (nn : Byte) (s : State) : Result := .next (s.advance.skipIf (s.getV x == nn))

/-- 4XNN (R105). -/
def execSneImm (x : Reg) (nn : Byte) (s : State) : Result := .next (s.advance.skipIf (s.getV x != nn))

/-- 5XY0 (R106). -/
def execSeReg (x y : Reg) (s : State) : Result := .next (s.advance.skipIf (s.getV x == s.getV y))

/-- 9XY0 (R107). -/
def execSneReg (x y : Reg) (s : State) : Result := .next (s.advance.skipIf (s.getV x != s.getV y))

/-- BNNN (R108): the sum is not reduced to 12 bits. -/
def execJpV0 (nnn : Imm12) (s : State) : Result :=
  .next (s.advance.setPc (zext16 nnn + byteToWord (s.getV V0)))

end Sys2Proof.Machine
end

