-- ==== Sys2Proof/Machine/Display.lean ====
section
/-!
DEFINITION. The display instructions and the sprite renderer (spec/43_display.md rules R170 to R175).
-/

namespace Sys2Proof.Machine

/-- fb[row][col] (R12, R30). -/
def pixel (fb : Framebuffer) (row : Fin 32) (col : Fin 64) : Bool := (fb.get row).get col

/-- The framebuffer with every pixel 0 (R39, R170). -/
def blankFb : Framebuffer := Vector.replicate 32 (Vector.replicate 64 false)

/-- fb[row][col] <- fb[row][col] XOR 1 (R171). -/
def togglePixel (fb : Framebuffer) (row : Fin 32) (col : Fin 64) : Framebuffer :=
  fb.set row.val ((fb.get row).set col.val (!pixel fb row col) col.isLt) row.isLt

/-- The columns of one sprite byte drawn at `x` whose sprite bit is 1, column offset 0 being bit 7 (R171). -/
def rowColumns (x b : Byte) : List (Fin 64) :=
  ((List.range 8).filter fun c => b.getLsbD (7 - c)).map fun c => Fin.ofNat 64 (x.toNat + c)

/-- The pixels of a sprite drawn at (`x`, `y`) whose sprite bit is 1, in the order blit visits them; coordinates wrap
(R171). `r` is the row offset of the first byte. -/
def spritePixels (x y : Byte) (r : Nat) : List Byte → List (Fin 32 × Fin 64)
  | [] => []
  | b :: bs => (rowColumns x b).map (fun c => (Fin.ofNat 32 (y.toNat + r), c)) ++ spritePixels x y (r + 1) bs

/-- One pixel of a sprite whose bit is 1 (R171): a lit pixel is a collision; the pixel is toggled. -/
def plot (acc : Framebuffer × Bool) (p : Fin 32 × Fin 64) : Framebuffer × Bool :=
  (togglePixel acc.1 p.1 p.2, acc.2 || pixel acc.1 p.1 p.2)

/-- blit(x, y, S) (R171): the framebuffer after it and `collided`. -/
def blit (fb : Framebuffer) (x y : Byte) (sprite : List Byte) : Framebuffer × Bool :=
  (spritePixels x y 0 sprite).foldl plot (fb, false)

/-- The VF write of DXYN (R172, R173). -/
def drawFlag (s : State) (collided : Bool) : State :=
  if collided then s.setV VF 1
  else if s.cfg.drawClearsVF then s.setV VF 0
  else s

/-- The effect of DXYN (R172): the coordinates are read before any write, and every address is checked before the
framebuffer changes. -/
def drawSprite (x y : Reg) (n : Nibble) (s : State) : Except Raised State :=
  match loadBytes s s.index.toNat n.toNat with
  | .error r => .error r
  | .ok sprite =>
    let drawn := blit s.fb (s.getV x) (s.getV y) sprite
    .ok ((drawFlag s drawn.2).setFb drawn.1)

/-- 00E0 (R170). -/
def execCls (s : State) : Result := .next (s.advance.setFb blankFb)

/-- DXYN (R172). -/
def execDrw (x y : Reg) (n : Nibble) (s : State) : Result :=
  conclude (encode (.drw x y n)) s (drawSprite x y n s.advance)

end Sys2Proof.Machine
end

