-- ==== Sys2Proof/Machine/IndexMemory.lean ====
section
/-!
DEFINITION. The index register and the memory instructions (spec/42_index_memory.md rules R150 to R156).
-/

namespace Sys2Proof.Machine

/-- ANNN (R150). -/
def execLdI (nnn : Imm12) (s : State) : Result := .next (s.advance.setIndex (zext16 nnn))

/-- FX1E (R151): modulo 65536, no flag, no check. -/
def execAddIX (x : Reg) (s : State) : Result := .next (s.advance.setIndex (s.index + byteToWord (s.getV x)))

/-- FX29 (R152): V[X] is not masked. -/
def execLdFX (x : Reg) (s : State) : Result := .next (s.advance.setIndex (5 * byteToWord (s.getV x)))

/-- FX33 (R153). -/
def execLdBX (x : Reg) (s : State) : Result :=
  conclude (encode (.ldBX x)) s (storeBytes s.advance s.index.toNat (decimalDigits (s.getV x)))

/-- The effect of FX55 (R154): the stores, then I <- (I + X + 1) mod 65536. -/
def storeBlock (x : Reg) (s : State) : Except Raised State :=
  match storeBytes s s.index.toNat (blockRegs s x) with
  | .error r => .error r
  | .ok t => .ok (t.setIndex (s.index + BitVec.ofNat 16 (blockSize x)))

/-- FX55 (R154). -/
def execLdMemX (x : Reg) (s : State) : Result := conclude (encode (.ldMemX x)) s (storeBlock x s.advance)

/-- The effect of FX65 (R155): the reads, all checked before any register is written, then I <- (I + X + 1) mod
65536. -/
def loadBlock (x : Reg) (s : State) : Except Raised State :=
  match loadBytes s s.index.toNat (blockSize x) with
  | .error r => .error r
  | .ok bytes =>
    .ok ((s.setRegs (setBlock 0 bytes s.v)).setIndex (s.index + BitVec.ofNat 16 (blockSize x)))

/-- FX65 (R155). -/
def execLdXMem (x : Reg) (s : State) : Result := conclude (encode (.ldXMem x)) s (loadBlock x s.advance)

end Sys2Proof.Machine
end

