-- ==== Sys2Proof/Machine/System.lean ====
section
/-!
DEFINITION. The legacy system call and the unknown words (spec/45_system.md rules R210 to R212).
-/

namespace Sys2Proof.Machine

/-- 0NNN (R210): P_SYS_POLICY selects a diagnostic or a fault. -/
def execSys (nnn : Imm12) (s : State) : Result :=
  conclude (encode (.sys nnn)) s
    (match s.cfg.sysPolicy with
     | .nop => .ok (s.advance.emit { kind := .unimplemented, word := encode (.sys nnn), addr := s.pc })
     | .fatal => .error { cause := .sysUnimplemented, info := 0 })

/-- A word that decodes to UNKNOWN (R211): a diagnostic, and execution continues past the word. -/
def skipUnknown (w : Word) (s : State) : State :=
  s.advance.emit { kind := .unknownOpcode, word := w, addr := s.pc }

end Sys2Proof.Machine
end

