-- ==== Sys2Proof/Machine/TimersInput.lean ====
section
/-!
DEFINITION. The timer and keypad instructions (spec/44_timers_input.md rules R190 to R197). The ticks and key events
that change timers and keys from outside are in Machine/Transactions.lean.
-/

namespace Sys2Proof.Machine

/-- EX9E (R191). -/
def execSkp (x : Reg) (s : State) : Result :=
  conclude (encode (.skp x)) s
    (match held s (s.getV x) with
     | .error r => .error r
     | .ok h => .ok (s.advance.skipIf h))

/-- EXA1 (R192). -/
def execSknp (x : Reg) (s : State) : Result :=
  conclude (encode (.sknp x)) s
    (match held s (s.getV x) with
     | .error r => .error r
     | .ok h => .ok (s.advance.skipIf (!h)))

/-- FX07 (R193). -/
def execLdXDt (x : Reg) (s : State) : Result := .next (s.advance.setV x s.dt)

/-- FX0A (R196, R197): the step part; the KEY_DOWN that completes it is keyDown of Machine/Transactions.lean. -/
def execLdXK (x : Reg) (s : State) : Result := .next (s.advance.setRun (.waitKey x))

/-- FX15 (R194). -/
def execLdDtX (x : Reg) (s : State) : Result := .next (s.advance.setDt (s.getV x))

/-- FX18 (R195). -/
def execLdStX (x : Reg) (s : State) : Result := .next (s.advance.setSt (s.getV x))

end Sys2Proof.Machine
end

