-- ==== Sys2Proof/Machine/Cycle.lean ====
section
/-!
DEFINITION. The execution cycle (spec/30_encoding.md rules R90 to R92): one fetch, decode and execute.
-/

namespace Sys2Proof.Machine

/-- The execution of a fetched word: an instruction runs, an UNKNOWN word is passed over (R90, R211). -/
def runWord (w : Word) (s : State) : Result :=
  match decodeWord s.cfg.strict59 w with
  | .ok i => exec i s
  | .error _ => .next (skipUnknown w s)

/-- One fetch-decode-execute cycle of a core that is Ready (R90). A fetch that faults records no word (R222). -/
def cycle (s : State) : Result :=
  match fetch s with
  | .ok w => runWord w s
  | .error r => .next (takeFault r s.pc 0 s)

/-- A step request (R90, R92): in WaitKey and in Halted nothing changes. -/
def stepRequest (s : State) : Result :=
  match s.run with
  | .ready => cycle s
  | .waitKey _ => .next s
  | .halted _ => .next s

/-- The state with the word `w` where the next step fetches it, and ready to step. Host-side placement of a program
word, standing for LOAD (log entry 8). -/
def placeNext (s : State) (w : Word) : State :=
  placeWord { s with run := .ready, halt := HaltRecord.empty } w

end Sys2Proof.Machine
end

