-- ==== Sys2Proof/Machine/Step.lean ====
section
/-!
DEFINITION. The step of the machine, which is the STEP transaction (spec/30_encoding.md rule R90,
spec/60_exceptions.md rule R240), and the placement of one word for it.
-/

namespace Sys2Proof.Machine

/-- One step (R90, R92). -/
def step : State → Host.Outcome State Fault Refusal := stepRequest

/-- `s` with the instruction whose opcode-table bits are `w` (the bits above `nbits` are 0) stored where the next step
fetches it; the core is made Ready (log entry 8). -/
def State.withFetchWord (s : State) (nbits w : Nat) : State := placeNext s (BitVec.ofNat 16 (w % 2 ^ nbits))

end Sys2Proof.Machine
end

