-- ==== Sys2Proof/Machine/Transactions.lean ====
section
/-!
DEFINITION. The host's transactions beside STEP (spec/60_exceptions.md rules R240 to R250) and the load of a program
(spec/70_reset_and_hazards.md rules R260 to R262). The host performs them one at a time, in any order (R225, R241); none
happens inside a step (R91). KEY_DOWN completes a waiting FX0A (R196).
-/

namespace Sys2Proof.Machine

/-! ### Codes the host reads (R221, R231) -/

/-- The code of a halt cause (R221). -/
def causeCode : Option Cause → Word
  | none => 0
  | some .fetchRange => 1
  | some .memRange => 2
  | some .fontWrite => 3
  | some .stackOverflow => 4
  | some .stackUnderflow => 5
  | some .keyRange => 6
  | some .sysUnimplemented => 7
  | some .stopped => 8

/-- The code of a diagnostic (R231). -/
def diagCode : DiagKind → Nat
  | .unknownOpcode => 1
  | .unimplemented => 2

/-! ### Load (R260, R261) -/

/-- Why a load is rejected (R261). -/
inductive LoadError where
  | loadTooLarge
  deriving DecidableEq, Repr

/-- LOAD(bytes) (R260, R261): the image is copied to PROGRAM_BASE, or rejected, and then no state exists. `cfg` gives
the parameters and `draws` the number of the environment's next random byte. -/
def load (cfg : Config) (draws : Nat) (bytes : List Byte) : Except LoadError State :=
  if maxProgramLen < bytes.length then .error .loadTooLarge
  else
    let s := State.initial cfg draws
    .ok (s.setMem (writeCells cfg.font (cellsFrom programBase bytes) s.mem))

/-- A second LOAD (R226, R262): the old state is discarded and a new one is built with the same parameters. The
environment's random bytes go on where they were. -/
def reload (s : State) (bytes : List Byte) : Except LoadError State := load s.cfg s.draws bytes

/-! ### Events (R243 to R245) -/

/-- Whether the core has stopped for good (R226). -/
def isHalted (s : State) : Bool :=
  match s.run with
  | .halted _ => true
  | .ready => false
  | .waitKey _ => false

/-- A timer counts down towards 0 and stays there (R244). -/
def countDown (t : Byte) : Byte := if t.toNat > 0 then t - 1 else t

/-- TICK (R244). -/
def tick (s : State) : State :=
  if isHalted s then s else { s with dt := countDown s.dt, st := countDown s.st }

/-- KEY_DOWN(k) (R245): it completes a waiting FX0A (R196). -/
def keyDown (k : Key) (s : State) : State :=
  match s.run with
  | .halted _ => s
  | .ready => s.setKey k true
  | .waitKey x => ((s.setKey k true).setV x (BitVec.ofNat 8 k.val)).setRun .ready

/-- KEY_UP(k) (R245). -/
def keyUp (k : Key) (s : State) : State := if isHalted s then s else s.setKey k false

/-- STOP (R243). The halt record is that of a fault without a word or an address. -/
def stop (s : State) : State :=
  if isHalted s then s else takeFault { cause := .stopped, info := 0 } s.pc 0 s

/-! ### Read-outs (R247 to R250) -/

/-- SNAPSHOT (R247). -/
def snapshot (s : State) : Framebuffer := s.fb

/-- READ_CLEAR_REDRAW (R248): the value, and the state with the flag cleared. -/
def readClearRedraw (s : State) : Bool × State := (s.redraw, { s with redraw := false })

/-- TONE (R249). -/
def tone (s : State) : Bool := decide (s.st.toNat > 0)

/-- STATUS (R250). -/
def status (s : State) : RunState × HaltRecord := (s.run, s.halt)

/-! ### The transactions as one interface (R240) -/

/-- What a STEP returns (R92). -/
inductive StepStatus where
  | ok
  | pending
  | halted
  deriving DecidableEq, Repr

/-- What the STEP that led from `before` to `after` returns (R92). -/
def stepStatus (before after : State) : StepStatus :=
  match before.run with
  | .waitKey _ => .pending
  | .halted _ => .halted
  | .ready => if isHalted after then .halted else .ok

/-- The transactions on a constructed core (R240). DIAG and RAND are not requests: a step emits the one into `diags`
and takes the other from `Config.drawRand`. LOAD is `load`. -/
inductive Transaction where
  | step
  | tick
  | keyDown (k : Key)
  | keyUp (k : Key)
  | stop
  | snapshot
  | readClearRedraw
  | tone
  | status
  deriving DecidableEq, Repr

/-- What a transaction returns to the host. -/
inductive Response where
  | done
  | stepped (status : StepStatus)
  | pixels (fb : Framebuffer)
  | flag (redraw : Bool)
  | level (tone : Bool)
  | record (run : RunState) (halt : HaltRecord)
  deriving DecidableEq, Repr

/-- One transaction (R240, R241): the state after it and what the host receives. -/
def perform (t : Transaction) (s : State) : Host.Outcome (State × Response) Fault Refusal :=
  match t with
  | .step =>
    match step s with
    | .next s' => .next (s', .stepped (stepStatus s s'))
    | .fault f => .fault f
    | .refused r => .refused r
  | .tick => .next (tick s, .done)
  | .keyDown k => .next (keyDown k s, .done)
  | .keyUp k => .next (keyUp k s, .done)
  | .stop => .next (stop s, .done)
  | .snapshot => .next (s, .pixels (snapshot s))
  | .readClearRedraw => .next ((readClearRedraw s).2, .flag (readClearRedraw s).1)
  | .tone => .next (s, .level (tone s))
  | .status => .next (s, .record (status s).1 (status s).2)

/-- A run: the transactions the host performs, in its order (R225, R241). -/
def performAll : List Transaction → State → Host.Outcome State Fault Refusal
  | [], s => .next s
  | t :: ts, s =>
    match perform t s with
    | .next (s', _) => performAll ts s'
    | .fault f => .fault f
    | .refused r => .refused r

end Sys2Proof.Machine
end

