-- ==== Sys2Proof/Safety.lean ====
section
/-!
DEFINITION. The terms the claims use: which parts of the state two states share, which parts an instruction may change
(spec/10_state.md rules R22 to R37), which faults it may raise (spec/60_exceptions.md rule R221), and the invariant of
the core.
-/

namespace Sys2Proof.Machine

/-! ### Frames -/

/-- The elements of the state, one per field of State (R39 and the model's own three). -/
inductive Field where
  | v
  | index
  | pc
  | sp
  | stack
  | dt
  | st
  | fb
  | redraw
  | key
  | run
  | halt
  | mem
  | cfg
  | draws
  | diags
  deriving DecidableEq, Repr

/-- The element is the same in both states. Registers, stack entries, keys, pixels and memory are compared through the
read of one register, entry, key, pixel or byte. -/
def Field.Same (f : Field) (s t : State) : Prop :=
  match f with
  | .v => ∀ r, t.getV r = s.getV r
  | .index => t.index = s.index
  | .pc => t.pc = s.pc
  | .sp => t.sp = s.sp
  | .stack => ∀ k, t.stackAt k = s.stackAt k
  | .dt => t.dt = s.dt
  | .st => t.st = s.st
  | .fb => ∀ r c, pixel t.fb r c = pixel s.fb r c
  | .redraw => t.redraw = s.redraw
  | .key => ∀ k : Key, t.key.get k = s.key.get k
  | .run => t.run = s.run
  | .halt => t.halt = s.halt
  | .mem => ∀ a, t.peek a = s.peek a
  | .cfg => t.cfg = s.cfg
  | .draws => t.draws = s.draws
  | .diags => t.diags = s.diags

/-- Every element but the listed ones is the same in both states. -/
def KeepsBut (fs : List Field) (s t : State) : Prop := ∀ f, f ∉ fs → f.Same s t

/-- Every general register but the listed ones is the same in both states. -/
def KeepsRegsBut (rs : List Reg) (s t : State) : Prop := ∀ r, r ∉ rs → t.getV r = s.getV r

/-- The pc is past the instruction and every element but pc and the listed ones is the same: the frame of an
instruction that falls through (R25). -/
def FallsThrough (fs : List Field) (s t : State) : Prop := t.pc = s.pc + 2 ∧ KeepsBut (.pc :: fs) s t

/-- The general registers an instruction's step may write (R22). FX0A writes V[X] only on its completion (R196). -/
def destRegs : Instr → List Reg
  | .cls => []
  | .ret => []
  | .sys _ => []
  | .jp _ => []
  | .call _ => []
  | .seImm _ _ => []
  | .sneImm _ _ => []
  | .seReg _ _ => []
  | .ldImm x _ => [x]
  | .addImm x _ => [x]
  | .ldReg x _ => [x]
  | .orReg x _ => [x]
  | .andReg x _ => [x]
  | .xorReg x _ => [x]
  | .addReg x _ => [x, VF]
  | .subReg x _ => [x, VF]
  | .shr x _ => [x, VF]
  | .subn x _ => [x, VF]
  | .shl x _ => [x, VF]
  | .sneReg _ _ => []
  | .ldI _ => []
  | .jpV0 _ => []
  | .rnd x _ => [x]
  | .drw _ _ _ => [VF]
  | .skp _ => []
  | .sknp _ => []
  | .ldXDt x => [x]
  | .ldXK _ => []
  | .ldDtX _ => []
  | .ldStX _ => []
  | .addIX _ => []
  | .ldFX _ => []
  | .ldBX _ => []
  | .ldMemX _ => []
  | .ldXMem x => (List.finRange 16).filter fun r => r ≤ x

/-- The general registers an instruction's step may read (R22). -/
def sourceRegs (cfg : Config) : Instr → List Reg
  | .cls => []
  | .ret => []
  | .sys _ => []
  | .jp _ => []
  | .call _ => []
  | .seImm x _ => [x]
  | .sneImm x _ => [x]
  | .seReg x y => [x, y]
  | .ldImm _ _ => []
  | .addImm x _ => [x]
  | .ldReg _ y => [y]
  | .orReg x y => [x, y]
  | .andReg x y => [x, y]
  | .xorReg x y => [x, y]
  | .addReg x y => [x, y]
  | .subReg x y => [x, y]
  | .shr x y => [shiftOperand cfg x y]
  | .subn x y => [x, y]
  | .shl x y => [shiftOperand cfg x y]
  | .sneReg x y => [x, y]
  | .ldI _ => []
  | .jpV0 _ => [V0]
  | .rnd _ _ => []
  | .drw x y _ => [x, y]
  | .skp x => [x]
  | .sknp x => [x]
  | .ldXDt _ => []
  | .ldXK _ => []
  | .ldDtX x => [x]
  | .ldStX x => [x]
  | .addIX x => [x]
  | .ldFX x => [x]
  | .ldBX x => [x]
  | .ldMemX x => (List.finRange 16).filter fun r => r ≤ x
  | .ldXMem _ => []

/-- The elements beside pc an instruction's step may change (R22, R23, R27, R29 to R34, R51). -/
def writtenFields : Instr → List Field
  | .cls => [.fb, .redraw]
  | .ret => [.sp, .run, .halt]
  | .sys _ => [.diags, .run, .halt]
  | .jp _ => []
  | .call _ => [.stack, .sp, .run, .halt]
  | .seImm _ _ => []
  | .sneImm _ _ => []
  | .seReg _ _ => []
  | .ldImm _ _ => [.v]
  | .addImm _ _ => [.v]
  | .ldReg _ _ => [.v]
  | .orReg _ _ => [.v]
  | .andReg _ _ => [.v]
  | .xorReg _ _ => [.v]
  | .addReg _ _ => [.v]
  | .subReg _ _ => [.v]
  | .shr _ _ => [.v]
  | .subn _ _ => [.v]
  | .shl _ _ => [.v]
  | .sneReg _ _ => []
  | .ldI _ => [.index]
  | .jpV0 _ => []
  | .rnd _ _ => [.v, .draws]
  | .drw _ _ _ => [.v, .fb, .redraw, .run, .halt]
  | .skp _ => [.run, .halt]
  | .sknp _ => [.run, .halt]
  | .ldXDt _ => [.v]
  | .ldXK _ => [.run]
  | .ldDtX _ => [.dt]
  | .ldStX _ => [.st]
  | .addIX _ => [.index]
  | .ldFX _ => [.index]
  | .ldBX _ => [.mem, .run, .halt]
  | .ldMemX _ => [.mem, .index, .run, .halt]
  | .ldXMem _ => [.v, .index, .run, .halt]

/-- The causes an instruction's execution may halt the core with (R221, raised by). -/
def raisedBy : Instr → List Cause
  | .cls => []
  | .ret => [.stackUnderflow]
  | .sys _ => [.sysUnimplemented]
  | .jp _ => []
  | .call _ => [.stackOverflow]
  | .seImm _ _ => []
  | .sneImm _ _ => []
  | .seReg _ _ => []
  | .ldImm _ _ => []
  | .addImm _ _ => []
  | .ldReg _ _ => []
  | .orReg _ _ => []
  | .andReg _ _ => []
  | .xorReg _ _ => []
  | .addReg _ _ => []
  | .subReg _ _ => []
  | .shr _ _ => []
  | .subn _ _ => []
  | .shl _ _ => []
  | .sneReg _ _ => []
  | .ldI _ => []
  | .jpV0 _ => []
  | .rnd _ _ => []
  | .drw _ _ _ => [.memRange]
  | .skp _ => [.keyRange]
  | .sknp _ => [.keyRange]
  | .ldXDt _ => []
  | .ldXK _ => []
  | .ldDtX _ => []
  | .ldStX _ => []
  | .addIX _ => []
  | .ldFX _ => []
  | .ldBX _ => [.memRange, .fontWrite]
  | .ldMemX _ => [.memRange, .fontWrite]
  | .ldXMem _ => [.memRange]

/-! ### Where an instruction leaves pc -/

/-- The pc after an instruction that did not halt the core (R25): the jumps and the call set a target, 00EE takes the
popped entry, a skip adds 2 more where its condition holds, every other instruction leaves pc past its word. -/
def PcAfter (i : Instr) (s : State) (p : Word) : Prop :=
  match i with
  | .jp nnn => p.toNat = nnn.toNat
  | .call nnn => p.toNat = nnn.toNat
  | .jpV0 nnn => p.toNat = nnn.toNat + (s.getV V0).toNat
  | .ret => p = s.stackAt (s.sp.toNat - 1)
  | .seImm x nn => p = if s.getV x = nn then s.pc + 4 else s.pc + 2
  | .sneImm x nn => p = if s.getV x ≠ nn then s.pc + 4 else s.pc + 2
  | .seReg x y => p = if s.getV x = s.getV y then s.pc + 4 else s.pc + 2
  | .sneReg x y => p = if s.getV x ≠ s.getV y then s.pc + 4 else s.pc + 2
  | .skp x => ∃ h, held s (s.getV x) = .ok h ∧ p = if h then s.pc + 4 else s.pc + 2
  | .sknp x => ∃ h, held s (s.getV x) = .ok h ∧ p = if h then s.pc + 2 else s.pc + 4
  | _ => p = s.pc + 2

/-! ### Faults and accesses in the words of the rules -/

/-- The core halted by a fault `c` of the word `w`, with `addr` recorded (R222): nothing but run and the halt record
differs from `s`. -/
def haltedBy (s : State) (c : Cause) (w : Word) (addr : Nat) : State :=
  { s with
    run := .halted c
    halt := { cause := some c, pc := s.pc, word := w, addr := BitVec.ofNat 16 addr } }

/-- An access to address `a` raises for its range (R53). -/
abbrev RangeFails (cfg : Config) (a : Nat) : Prop := cfg.addrPolicy = .fault ∧ 0x1000 ≤ a

/-- The address an access to `a` that does not raise goes to (R53). -/
def landing (cfg : Config) (a : Nat) : Nat :=
  if a < 0x1000 then a
  else
    match cfg.addrPolicy with
    | .fault => a
    | .wrap12 => a % 0x1000
    | .clamp => 0xFFF

/-- A store to address `a` that is in range raises for the font region (R55). -/
abbrev FontFails (cfg : Config) (a : Nat) : Prop := cfg.fontWrite = .fault ∧ landing cfg a ≤ 0x04F

/-- A store to address `a`, if it does not raise, changes memory: it is not dropped by P_FONT_WRITE = IGNORE (R55). -/
abbrev Lands (cfg : Config) (a : Nat) : Prop := 0x04F < landing cfg a ∨ cfg.fontWrite = .write

/-- The effect on memory of storing `bytes` at consecutive addresses from `a` on, none of which raises (R53, R55, R59):
an address holds the last byte that landed on it, and every other address its old byte. -/
def Stored (s t : State) (a : Nat) (bytes : List Byte) : Prop :=
  (∀ k (h : k < bytes.length), Lands s.cfg (a + k) →
      (∀ j, k < j → j < bytes.length → landing s.cfg (a + j) ≠ landing s.cfg (a + k)) →
      t.peek (landing s.cfg (a + k)) = bytes[k]) ∧
  ∀ e, (∀ k, k < bytes.length → Lands s.cfg (a + k) → landing s.cfg (a + k) ≠ e) → t.peek e = s.peek e

/-- Byte `k` of a block of `n` reads from `a` on is the first that raises. -/
def FirstReadFault (cfg : Config) (a n k : Nat) : Prop :=
  k < n ∧ RangeFails cfg (a + k) ∧ ∀ j, j < k → ¬RangeFails cfg (a + j)

/-- Byte `k` of a block of `n` stores from `a` on is the first that raises (R224). -/
def FirstStoreFault (cfg : Config) (a n k : Nat) : Prop :=
  k < n ∧ (RangeFails cfg (a + k) ∨ FontFails cfg (a + k)) ∧
    ∀ j, j < k → ¬RangeFails cfg (a + j) ∧ ¬FontFails cfg (a + j)

/-- A block of `n` reads from I on raises `c` with halt_addr `a`: MEM_RANGE, for the first address outside memory. -/
def LoadRaises (s : State) (n : Nat) (c : Cause) (a : Nat) : Prop :=
  ∃ k, FirstReadFault s.cfg s.index.toNat n k ∧ c = .memRange ∧ a = s.index.toNat + k

/-- A block of `n` stores from I on raises `c` with halt_addr `a`: the first address that fails decides, MEM_RANGE with
that address, or else FONT_WRITE with the effective address (R221, R224). -/
def StoreRaises (s : State) (n : Nat) (c : Cause) (a : Nat) : Prop :=
  ∃ k, FirstStoreFault s.cfg s.index.toNat n k ∧
    (RangeFails s.cfg (s.index.toNat + k) ∧ c = .memRange ∧ a = s.index.toNat + k ∨
      ¬RangeFails s.cfg (s.index.toNat + k) ∧ c = .fontWrite ∧ a = landing s.cfg (s.index.toNat + k))

/-- A key skip on V[x] raises `c` with halt_addr `a` (R190, R221). -/
def KeyRaises (s : State) (x : Reg) (c : Cause) (a : Nat) : Prop :=
  s.cfg.keyRange = .fault ∧ 0xF < (s.getV x).toNat ∧ c = .keyRange ∧ a = (s.getV x).toNat

/-- The table of R221, read for one instruction: executed in state `s` it raises cause `c`, and halt_addr is `a`. -/
def Raises (i : Instr) (s : State) (c : Cause) (a : Nat) : Prop :=
  match i with
  | .cls => False
  | .ret => s.sp.toNat = 0 ∧ c = .stackUnderflow ∧ a = 0
  | .sys _ => s.cfg.sysPolicy = .fatal ∧ c = .sysUnimplemented ∧ a = 0
  | .jp _ => False
  | .call _ => s.sp.toNat = 16 ∧ c = .stackOverflow ∧ a = 0
  | .seImm _ _ => False
  | .sneImm _ _ => False
  | .seReg _ _ => False
  | .ldImm _ _ => False
  | .addImm _ _ => False
  | .ldReg _ _ => False
  | .orReg _ _ => False
  | .andReg _ _ => False
  | .xorReg _ _ => False
  | .addReg _ _ => False
  | .subReg _ _ => False
  | .shr _ _ => False
  | .subn _ _ => False
  | .shl _ _ => False
  | .sneReg _ _ => False
  | .ldI _ => False
  | .jpV0 _ => False
  | .rnd _ _ => False
  | .drw _ _ n => LoadRaises s n.toNat c a
  | .skp x => KeyRaises s x c a
  | .sknp x => KeyRaises s x c a
  | .ldXDt _ => False
  | .ldXK _ => False
  | .ldDtX _ => False
  | .ldStX _ => False
  | .addIX _ => False
  | .ldFX _ => False
  | .ldBX _ => StoreRaises s 3 c a
  | .ldMemX x => StoreRaises s (x.val + 1) c a
  | .ldXMem x => LoadRaises s (x.val + 1) c a

/-! ### The flag-writing ALU instructions -/

/-- An operand as the second statement of a flag-writing ALU instruction reads it (R121): under SEQUENTIAL, VF already
holds the flag. -/
def operandAfterFlag (s : State) (r : Reg) (flag : Nat) : Nat :=
  if s.cfg.aluOrder = .sequential ∧ r = VF then flag else (s.getV r).toNat

/-- The outcome of a flag-writing ALU instruction (R121): V[x] holds the result and VF the flag; where V[x] is VF, the
later write stays. Nothing else changes but pc. -/
def FlaggedResult (s t : State) (x : Reg) (result flag : Nat) : Prop :=
  (x ≠ VF → (t.getV x).toNat = result ∧ (t.getV VF).toNat = flag) ∧
  (x = VF → s.cfg.aluOrder = .sequential → (t.getV VF).toNat = result) ∧
  (x = VF → s.cfg.aluOrder = .flagLast → (t.getV VF).toNat = flag) ∧
  KeepsRegsBut [x, VF] s t ∧ FallsThrough [.v] s t

/-! ### Sprites -/

/-- A sprite bit of 1 lands on pixel (`row`, `col`) when DXYN draws from state `s` (R171, R172). -/
def SpriteCovers (s : State) (x y : Reg) (n : Nibble) (row : Fin 32) (col : Fin 64) : Prop :=
  ∃ k, k < n.toNat ∧ ∃ c, c < 8 ∧ (s.peek (landing s.cfg (s.index.toNat + k))).getLsbD (7 - c) = true ∧
    row.val = ((s.getV y).toNat + k) % 32 ∧ col.val = ((s.getV x).toNat + c) % 64

/-! ### The invariant of the core -/

/-- The halt record of a core halted with cause `c` is one R34 and R221 allow under the parameters. -/
def recordLegal (cfg : Config) (c : Cause) (h : HaltRecord) : Bool :=
  h.cause == some c &&
  match c with
  | .fetchRange =>
    cfg.addrPolicy == .fault && h.word == 0 &&
      (h.addr == h.pc && decide (memSize ≤ h.pc.toNat) || h.pc == 0x0FFF && h.addr == 0x1000)
  | .memRange => cfg.addrPolicy == .fault && decide (memSize ≤ h.addr.toNat)
  | .fontWrite => cfg.fontWrite == .fault && decide (h.addr.toNat < fontSize)
  | .stackOverflow => h.addr == 0
  | .stackUnderflow => h.addr == 0
  | .keyRange => cfg.keyRange == .fault && decide (0xF < h.addr.toNat) && decide (h.addr.toNat ≤ 0xFF)
  | .sysUnimplemented => cfg.sysPolicy == .fatal && h.addr == 0
  | .stopped => h.word == 0 && h.addr == 0

/-- The halt record agrees with the run state: written exactly when the core is halted (R33, R34). -/
def haltCoherent (s : State) : Bool :=
  match s.run with
  | .halted c => recordLegal s.cfg c s.halt
  | .ready => s.halt == HaltRecord.empty
  | .waitKey _ => s.halt == HaltRecord.empty

/-- The invariant of the core: memory is in canonical form, sp lies in [0, 16] (R28), and the halt record agrees with
the run state (R34). -/
abbrev Inv (s : State) : Prop :=
  Memory.wf s.cfg.font s.mem = true ∧ s.sp.toNat ≤ stackDepth ∧ haltCoherent s = true

/-- The font region reads as P_FONT (R56). -/
def FontIntact (s : State) : Prop := ∀ a, a < fontSize → s.peek a = background s.cfg.font a

end Sys2Proof.Machine
end

