-- ==== Sys2Proof/Certificates/Slice0/Obligations.lean ====
section
/-!
DEFINITION. The statements for the provers, in the words of the rules of spec/. Each docstring names the rules; a
clause that rests on a choice of the model names the log entry.
-/

open Sys2Proof Sys2Proof.Machine

/-! ### Encoding (30_encoding.md) -/

/-- R84, R89: the word of every well-formed instruction decodes to that instruction, under both values of
P_STRICT_5_9, and from memory order whatever bytes follow. -/
def Obligations.EncodedInstructionDecodesBack : Prop :=
  ∀ (strict : Bool) (i : Instr) (rest : List Byte), WellFormed i →
    decodeWord strict (encode i) = .ok i ∧
      decodeBytes strict (bytesOfWord (encode i) ++ rest) = .ok (i, rest)

/-- R84, R86, R87: a word decodes to an instruction only if it is that instruction's word; under P_STRICT_5_9 = false
the one exception is the ignored low nibble of classes 5 and 9. -/
def Obligations.DecodedInstructionEncodesToItsWord : Prop :=
  ∀ (w : Word) (i : Instr),
    (decodeWord true w = .ok i → WellFormed i ∧ encode i = w) ∧
    (decodeWord false w = .ok i → WellFormed i ∧
      (encode i = w ∨ (opClass w = 0x5#4 ∨ opClass w = 0x9#4) ∧ encode i = w &&& 0xFFF0#16))

/-- R87: the words without an instruction are the words of R87's table, and the decoder names the word. -/
def Obligations.UnknownWordsAreThoseOfTheTable : Prop :=
  ∀ (strict : Bool) (w : Word),
    (unknownWord strict w = true → decodeWord strict w = .error (.unknownOpcode w)) ∧
    (unknownWord strict w = false → ∃ i, decodeWord strict w = .ok i)

/-- R81, R84 to R86: words written out bit by bit from the encoding table decode to their instructions. -/
def Obligations.WordsOfTheEncodingTableDecode : Prop :=
  decodeWord true 0b0000000011100000#16 = .ok .cls ∧
  decodeWord true 0b0000000011101110#16 = .ok .ret ∧
  decodeWord true 0b0000000111100000#16 = .ok (.sys 0x1E0) ∧
  decodeWord true 0b0010001100000000#16 = .ok (.call 0x300) ∧
  decodeWord true 0b0110101001011100#16 = .ok (.ldImm 10 0x5C) ∧
  decodeWord true 0b1000000100100101#16 = .ok (.subReg 1 2) ∧
  decodeWord true 0b1101000000010101#16 = .ok (.drw 0 1 5) ∧
  decodeWord true 0b1110001010100001#16 = .ok (.sknp 2) ∧
  decodeWord true 0b1111001001100101#16 = .ok (.ldXMem 2) ∧
  decodeWord true 0b0101000100100001#16 = .error (.unknownOpcode 0x5121) ∧
  decodeWord false 0b0101000100100001#16 = .ok (.seReg 1 2) ∧
  decodeWord true 0b1000000100101000#16 = .error (.unknownOpcode 0x8128)

/-! ### The cycle (30_encoding.md, 20_memory.md) -/

/-- R90: a step of a Ready core runs the instruction the two bytes at pc decode to (the byte at pc being bits 15:8),
and more generally the instruction the fetched word decodes to. The step adds nothing around exec. -/
def Obligations.StepRunsTheDecodedInstruction : Prop :=
  ∀ (s : State) (i : Instr), s.run = .ready →
    (s.pc.toNat + 1 < 0x1000 →
      decodeWord s.cfg.strict59 (wordOfBytes (s.peek s.pc.toNat) (s.peek (s.pc.toNat + 1))) = .ok i →
      step s = exec i s) ∧
    (∀ w, fetch s = .ok w → decodeWord s.cfg.strict59 w = .ok i → step s = exec i s)

/-- R62: the fetch under each P_ADDR_POLICY. -/
def Obligations.FetchReadsTheWordAtPc : Prop :=
  ∀ s : State,
    (s.pc.toNat + 1 < 0x1000 →
      fetch s = .ok (s.peek s.pc.toNat ++ s.peek (s.pc.toNat + 1))) ∧
    (s.cfg.addrPolicy = .fault → 0x1000 ≤ s.pc.toNat →
      fetch s = .error { cause := .fetchRange, info := s.pc.toNat }) ∧
    (s.cfg.addrPolicy = .fault → s.pc.toNat = 0xFFF →
      fetch s = .error { cause := .fetchRange, info := 0x1000 }) ∧
    (s.cfg.addrPolicy = .wrap12 →
      fetch s = .ok (s.peek (s.pc.toNat % 0x1000) ++ s.peek ((s.pc.toNat + 1) % 0x1000))) ∧
    (s.cfg.addrPolicy = .clamp →
      fetch s = .ok (s.peek (min s.pc.toNat 0xFFF) ++ s.peek (min (s.pc.toNat + 1) 0xFFF)))

/-- R62, R222: a fetch that leaves memory halts the core, with no word recorded. -/
def Obligations.FetchOutsideMemoryHalts : Prop :=
  ∀ s : State, s.run = .ready → s.cfg.addrPolicy = .fault → 0xFFF ≤ s.pc.toNat →
    step s = .next (haltedBy s .fetchRange 0 (max s.pc.toNat 0x1000))

/-- R92: what a step request returns, and that it changes nothing where the core is not Ready. -/
def Obligations.StepRequestAnswersItsStatus : Prop :=
  ∀ s : State,
    (∀ x, s.run = .waitKey x → perform .step s = .next (s, .stepped .pending)) ∧
    (∀ c, s.run = .halted c → perform .step s = .next (s, .stepped .halted)) ∧
    (∀ t, s.run = .ready → step s = .next t →
      (∀ c, t.run = .halted c → perform .step s = .next (t, .stepped .halted)) ∧
      ((∀ c, t.run ≠ .halted c) → perform .step s = .next (t, .stepped .ok)))

/-- R211: an UNKNOWN word is reported and passed over. -/
def Obligations.UnknownWordIsReportedAndPassedOver : Prop :=
  ∀ (s : State) (w : Word), s.run = .ready → fetch s = .ok w → unknownWord s.cfg.strict59 w = true →
    step s = .next
      { s with pc := s.pc + 2, diags := s.diags ++ [{ kind := .unknownOpcode, word := w, addr := s.pc }] }

/-- R102, R269: from a jump to itself, any number of steps leaves the state unchanged. -/
def Obligations.SelfJumpStaysForEver : Prop :=
  ∀ (s : State) (nnn : Imm12) (k : Nat), s.run = .ready → fetch s = .ok (encode (.jp nnn)) → s.pc.toNat = nnn.toNat →
    performAll (List.replicate k .step) s = .next s

/-! ### Faults and whole-machine rules (60_exceptions.md, 10_state.md) -/

/-- R223: a step that halts the core leaves the state before it but for run and the halt record, which names the
address of the word and the word (none where the fetch itself failed). -/
def Obligations.FaultingStepIsPrecise : Prop :=
  ∀ s t : State, s.run = .ready → step s = .next t → isHalted t = true →
    ∃ c, t = { s with run := .halted c, halt := t.halt } ∧ t.halt.cause = some c ∧ t.halt.pc = s.pc ∧
      (c = .fetchRange → t.halt.word = 0 ∧ ∃ r, fetch s = .error r) ∧
      (c ≠ .fetchRange → fetch s = .ok t.halt.word)

/-- R221: an instruction halts the core only with a cause the table lists for it, only under the parameter that raises
it, and with an address in the range the cause allows. Which address it is, FaultsAreRaisedExactlyAsTheTableSays says. -/
def Obligations.FaultsAreThoseTheTableLists : Prop :=
  ∀ (i : Instr) (s t : State) (c : Cause), s.run = .ready → exec i s = .next t → t.run = .halted c →
    c ∈ raisedBy i ∧ recordLegal s.cfg c t.halt = true

/-- R221, R224, R34: an instruction halts the core exactly in the states the table lists for it, with the listed
halt_addr: the first failing address for MEM_RANGE, the effective address for FONT_WRITE, V[X] for KEY_RANGE, 0
otherwise. The halted state is the state before it with the word and that address recorded. -/
def Obligations.FaultsAreRaisedExactlyAsTheTableSays : Prop :=
  ∀ (i : Instr) (s : State) (c : Cause), s.run = .ready →
    (∀ t, exec i s = .next t → t.run = .halted c → Raises i s c t.halt.addr.toNat) ∧
    (∀ a, Raises i s c a → exec i s = .next (haltedBy s c (encode i) a))

/-- R226: Halted is final. Every transaction is answered; none leaves Halted or changes the halt record; only
READ_CLEAR_REDRAW changes anything, the flag it clears. So it is after any run of transactions. A new LOAD builds a
Ready core. -/
def Obligations.HaltedIsFinal : Prop :=
  ∀ (s : State) (c : Cause), s.run = .halted c →
    perform .step s = .next (s, .stepped .halted) ∧
    (∀ tr, tr ≠ .readClearRedraw → ∃ r, perform tr s = .next (s, r)) ∧
    (∀ ts, ∃ t, performAll ts s = .next t ∧ KeepsBut [.redraw] s t) ∧
    (∀ bytes, bytes.length ≤ 0xE00 → ∃ t, reload s bytes = .ok t ∧ t.run = .ready ∧ t.halt = HaltRecord.empty)

/-- R28 and log entry 7 (the model's choice): no instruction refuses, and the machine stops only in 2NNN and 00EE with
an sp that R28 excludes. -/
def Obligations.OnlyABadStackPointerStopsTheMachine : Prop :=
  ∀ (i : Instr) (s : State),
    (∀ r, exec i s ≠ .refused r) ∧
    (exec i s = .fault .stackPointerOutOfRange ↔ 16 < s.sp.toNat ∧ (i = .ret ∨ ∃ nnn, i = .call nnn))

/-- R28, R34, R50: every step keeps the invariant of the core. -/
def Obligations.StepKeepsTheInvariant : Prop :=
  ∀ s t : State, Inv s → step s = .next t → Inv t

/-- R28, R34, R225, R241: from a state that meets the invariant no sequence of transactions, in whatever order, stops
the machine, and the state after it meets the invariant. -/
def Obligations.NoRunOfTransactionsStops : Prop :=
  ∀ (ts : List Transaction) (s : State), Inv s → ∃ t, performAll ts s = .next t ∧ Inv t

/-- The invariant holds after reset. -/
def Obligations.ResetMeetsTheInvariant : Prop := Inv State.reset

/-- R9, R55, R56: no run of transactions changes a parameter; and unless P_FONT_WRITE = WRITE, none changes a byte of
the font region. -/
def Obligations.FontRegionIsImmutable : Prop :=
  ∀ (ts : List Transaction) (s t : State), performAll ts s = .next t →
    t.cfg = s.cfg ∧ (s.cfg.fontWrite ≠ .write → FontIntact s → FontIntact t)

/-- R22, R23, R27, R29 to R34, R51: the frame of every instruction. Beside pc, only the elements listed for it may
change, and of the general registers only its destinations. -/
def Obligations.EachInstructionKeepsWhatItDoesNotWrite : Prop :=
  ∀ (i : Instr) (s t : State), exec i s = .next t →
    KeepsBut (.pc :: writtenFields i) s t ∧ KeepsRegsBut (destRegs i) s t

/-- R22: a register an instruction neither reads nor writes has no influence: with another value in it, the instruction
does the same and leaves that value. -/
def Obligations.UnreadRegistersHaveNoInfluence : Prop :=
  ∀ (i : Instr) (s t : State) (r : Reg) (b : Byte), r ∉ sourceRegs s.cfg i → r ∉ destRegs i →
    exec i s = .next t → exec i (s.setV r b) = .next (t.setV r b)

/-- R24, R25: where every instruction leaves pc; a fault restores it. -/
def Obligations.PcAfterEveryInstruction : Prop :=
  ∀ (i : Instr) (s t : State), s.run = .ready → exec i s = .next t →
    (isHalted t = true → t.pc = s.pc) ∧ (isHalted t = false → PcAfter i s t.pc)

/-- R53: the range check under each P_ADDR_POLICY, for fetches and data accesses. -/
def Obligations.AddressCheckFollowsThePolicy : Prop :=
  ∀ (p : AddrPolicy) (kind : AccessKind) (a : Nat),
    (a < 0x1000 → effectiveAddr p kind a = .ok a) ∧
    (0x1000 ≤ a →
      effectiveAddr .fault .fetch a = .error { cause := .fetchRange, info := a } ∧
      effectiveAddr .fault .data a = .error { cause := .memRange, info := a } ∧
      effectiveAddr .wrap12 kind a = .ok (a % 0x1000) ∧
      effectiveAddr .clamp kind a = .ok 0xFFF)

/-- R55: the store of one byte, under each P_FONT_WRITE, at an address whose range check gives `e`. -/
def Obligations.ByteStoreGuardsTheFont : Prop :=
  ∀ (s : State) (a : Nat) (b : Byte), Memory.wf s.cfg.font s.mem = true →
    (∀ r, effectiveAddr s.cfg.addrPolicy .data a = .error r → storeBytes s a [b] = .error r) ∧
    (∀ e, effectiveAddr s.cfg.addrPolicy .data a = .ok e →
      (e ≤ 0x04F → s.cfg.fontWrite = .fault → storeBytes s a [b] = .error { cause := .fontWrite, info := e }) ∧
      (e ≤ 0x04F → s.cfg.fontWrite = .ignore → storeBytes s a [b] = .ok s) ∧
      (0x04F < e ∨ s.cfg.fontWrite = .write →
        ∃ t, storeBytes s a [b] = .ok t ∧ t.peek e = b ∧ (∀ x, x ≠ e → t.peek x = s.peek x) ∧ KeepsBut [.mem] s t))

/-! ### Control flow (40_control_flow.md) -/

/-- R104 to R107: the skips on registers and immediates. -/
def Obligations.SkipsTestTheirOperands : Prop :=
  ∀ (s : State) (x y : Reg) (nn : Byte),
    exec (.seImm x nn) s = .next { s with pc := if s.getV x = nn then s.pc + 4 else s.pc + 2 } ∧
    exec (.sneImm x nn) s = .next { s with pc := if s.getV x ≠ nn then s.pc + 4 else s.pc + 2 } ∧
    exec (.seReg x y) s = .next { s with pc := if s.getV x = s.getV y then s.pc + 4 else s.pc + 2 } ∧
    exec (.sneReg x y) s = .next { s with pc := if s.getV x ≠ s.getV y then s.pc + 4 else s.pc + 2 }

/-- R102, R108: the jumps; BNNN adds V0 without reduction to 12 bits. -/
def Obligations.JumpsSetPc : Prop :=
  ∀ (s : State) (nnn : Imm12),
    (∃ t, exec (.jp nnn) s = .next t ∧ t.pc.toNat = nnn.toNat ∧ KeepsBut [.pc] s t) ∧
    (∃ t, exec (.jpV0 nnn) s = .next t ∧ t.pc.toNat = nnn.toNat + (s.getV V0).toNat ∧ KeepsBut [.pc] s t)

/-- R103: a call pushes the address after it; a call on a full stack halts the core. -/
def Obligations.CallPushesTheReturnAddress : Prop :=
  ∀ (s : State) (nnn : Imm12),
    (s.sp.toNat < 16 → ∃ t, exec (.call nnn) s = .next t ∧ t.stackAt s.sp.toNat = s.pc + 2 ∧
      (∀ k, k ≠ s.sp.toNat → t.stackAt k = s.stackAt k) ∧ t.sp.toNat = s.sp.toNat + 1 ∧
      t.pc.toNat = nnn.toNat ∧ KeepsBut [.pc, .sp, .stack] s t) ∧
    (s.sp.toNat = 16 → exec (.call nnn) s = .next (haltedBy s .stackOverflow (encode (.call nnn)) 0))

/-- R101: a return pops into pc; a return on an empty stack halts the core. -/
def Obligations.ReturnPopsIntoPc : Prop :=
  ∀ s : State,
    (1 ≤ s.sp.toNat → s.sp.toNat ≤ 16 → ∃ t, exec .ret s = .next t ∧ t.pc = s.stackAt (s.sp.toNat - 1) ∧
      t.sp.toNat = s.sp.toNat - 1 ∧ KeepsBut [.pc, .sp] s t) ∧
    (s.sp.toNat = 0 → exec .ret s = .next (haltedBy s .stackUnderflow 0x00EE 0))

/-- R101, R103: a return after a call lands after the call, with sp as it was. -/
def Obligations.ReturnLandsAfterTheCall : Prop :=
  ∀ (s t : State) (nnn : Imm12), s.sp.toNat < 16 → exec (.call nnn) s = .next t →
    ∃ u, exec .ret t = .next u ∧ u.pc = s.pc + 2 ∧ u.sp = s.sp ∧ KeepsBut [.pc, .stack] s u

/-! ### Loads, ALU, random (41_alu.md) -/

/-- R123, R124: load and add immediate; no flag. -/
def Obligations.ImmediatesLoadAndAdd : Prop :=
  ∀ (s : State) (x : Reg) (nn : Byte),
    (∃ t, exec (.ldImm x nn) s = .next t ∧ t.getV x = nn ∧ KeepsRegsBut [x] s t ∧ FallsThrough [.v] s t) ∧
    (∃ t, exec (.addImm x nn) s = .next t ∧ (t.getV x).toNat = ((s.getV x).toNat + nn.toNat) % 256 ∧
      KeepsRegsBut [x] s t ∧ FallsThrough [.v] s t)

/-- R125 to R128: copy, OR, AND, XOR, bit by bit; no flag. -/
def Obligations.CopyAndBitwiseOperations : Prop :=
  ∀ (s : State) (x y : Reg),
    (∃ t, exec (.ldReg x y) s = .next t ∧ t.getV x = s.getV y ∧ KeepsRegsBut [x] s t ∧ FallsThrough [.v] s t) ∧
    (∃ t, exec (.orReg x y) s = .next t ∧
      (∀ k, (t.getV x).getLsbD k = ((s.getV x).getLsbD k || (s.getV y).getLsbD k)) ∧
      KeepsRegsBut [x] s t ∧ FallsThrough [.v] s t) ∧
    (∃ t, exec (.andReg x y) s = .next t ∧
      (∀ k, (t.getV x).getLsbD k = ((s.getV x).getLsbD k && (s.getV y).getLsbD k)) ∧
      KeepsRegsBut [x] s t ∧ FallsThrough [.v] s t) ∧
    (∃ t, exec (.xorReg x y) s = .next t ∧
      (∀ k, (t.getV x).getLsbD k = ((s.getV x).getLsbD k != (s.getV y).getLsbD k)) ∧
      KeepsRegsBut [x] s t ∧ FallsThrough [.v] s t)

/-- R129: add with carry out, under both write orders and for every X and Y, VF included. -/
def Obligations.AddSetsCarry : Prop :=
  ∀ (s : State) (x y : Reg), ∃ t, exec (.addReg x y) s = .next t ∧
    FlaggedResult s t x (((s.getV x).toNat + (s.getV y).toNat) % 256)
      (if (s.getV x).toNat + (s.getV y).toNat > 255 then 1 else 0)

/-- R130: subtract; VF = not borrow. -/
def Obligations.SubtractSetsNotBorrow : Prop :=
  ∀ (s : State) (x y : Reg), ∃ t, exec (.subReg x y) s = .next t ∧
    let flag := if (s.getV x).toNat ≥ (s.getV y).toNat then 1 else 0
    FlaggedResult s t x ((256 + operandAfterFlag s x flag - operandAfterFlag s y flag) % 256) flag

/-- R132: reverse subtract; VF = not borrow. -/
def Obligations.ReverseSubtractSetsNotBorrow : Prop :=
  ∀ (s : State) (x y : Reg), ∃ t, exec (.subn x y) s = .next t ∧
    let flag := if (s.getV y).toNat ≥ (s.getV x).toNat then 1 else 0
    FlaggedResult s t x ((256 + operandAfterFlag s y flag - operandAfterFlag s x flag) % 256) flag

/-- R131: shift right by one of V[X] (P_SHIFT_SRC = VX) or of V[Y] (VY); VF = the bit shifted out. -/
def Obligations.ShiftRightSetsShiftedOutBit : Prop :=
  ∀ (s : State) (x y o : Reg),
    (s.cfg.shiftSrc = .vx → o = x) → (s.cfg.shiftSrc = .vy → o = y) →
    ∃ t, exec (.shr x y) s = .next t ∧
      let flag := (s.getV o).toNat % 2
      FlaggedResult s t x (operandAfterFlag s o flag / 2) flag

/-- R133: shift left by one of V[X] (P_SHIFT_SRC = VX) or of V[Y] (VY); VF = the bit shifted out. -/
def Obligations.ShiftLeftSetsShiftedOutBit : Prop :=
  ∀ (s : State) (x y o : Reg),
    (s.cfg.shiftSrc = .vx → o = x) → (s.cfg.shiftSrc = .vy → o = y) →
    ∃ t, exec (.shl x y) s = .next t ∧
      let flag := (s.getV o).toNat / 128
      FlaggedResult s t x (2 * operandAfterFlag s o flag % 256) flag

/-- R134, R135: CXNN masks the next byte of the environment, whatever it is, and takes a fresh one. That the byte is the
free value `Config.drawRand` of a count of draws in the state, which CXNN advances by 1, is the model's choice (log
entry 1). -/
def Obligations.RandomByteIsMasked : Prop :=
  ∀ (s : State) (x : Reg) (nn : Byte), ∃ t, exec (.rnd x nn) s = .next t ∧
    (∀ k, (t.getV x).getLsbD k = ((Config.drawRand s.draws).getLsbD k && nn.getLsbD k)) ∧
    t.draws = s.draws + 1 ∧ KeepsRegsBut [x] s t ∧ FallsThrough [.v, .draws] s t

/-! ### Index register and memory (42_index_memory.md) -/

/-- R150, R151, R152: the writes of I. -/
def Obligations.IndexRegisterWrites : Prop :=
  ∀ (s : State) (x : Reg) (nnn : Imm12),
    (∃ t, exec (.ldI nnn) s = .next t ∧ t.index.toNat = nnn.toNat ∧ FallsThrough [.index] s t) ∧
    (∃ t, exec (.addIX x) s = .next t ∧ t.index.toNat = (s.index.toNat + (s.getV x).toNat) % 65536 ∧
      FallsThrough [.index] s t) ∧
    (∃ t, exec (.ldFX x) s = .next t ∧ t.index.toNat = 5 * (s.getV x).toNat ∧ FallsThrough [.index] s t)

/-- R153: FX33 stores the three decimal digits at I to I + 2, or halts the core on the first address that fails its
check with no byte written. Under every P_ADDR_POLICY and P_FONT_WRITE. -/
def Obligations.DecimalDigitsAreStored : Prop :=
  ∀ (s : State) (x : Reg), Memory.wf s.cfg.font s.mem = true →
    ((∀ k, k < 3 → ¬RangeFails s.cfg (s.index.toNat + k) ∧ ¬FontFails s.cfg (s.index.toNat + k)) →
      ∃ t, exec (.ldBX x) s = .next t ∧ FallsThrough [.mem] s t ∧
        Stored s t s.index.toNat
          [BitVec.ofNat 8 ((s.getV x).toNat / 100), BitVec.ofNat 8 ((s.getV x).toNat / 10 % 10),
           BitVec.ofNat 8 ((s.getV x).toNat % 10)]) ∧
    (∀ k, FirstStoreFault s.cfg s.index.toNat 3 k →
      exec (.ldBX x) s = .next
        (if RangeFails s.cfg (s.index.toNat + k)
         then haltedBy s .memRange (encode (.ldBX x)) (s.index.toNat + k)
         else haltedBy s .fontWrite (encode (.ldBX x)) (landing s.cfg (s.index.toNat + k))))

/-- R154: FX55 stores V0 to V[X] at I to I + X and adds X + 1 to I, or halts the core on the first address that fails
its check with nothing written. Under every P_ADDR_POLICY and P_FONT_WRITE. -/
def Obligations.RegisterBlockIsStored : Prop :=
  ∀ (s : State) (x : Reg), Memory.wf s.cfg.font s.mem = true →
    ((∀ k, k ≤ x.val → ¬RangeFails s.cfg (s.index.toNat + k) ∧ ¬FontFails s.cfg (s.index.toNat + k)) →
      ∃ t, exec (.ldMemX x) s = .next t ∧ FallsThrough [.mem, .index] s t ∧
        t.index.toNat = (s.index.toNat + x.val + 1) % 65536 ∧
        Stored s t s.index.toNat (((List.finRange 16).map s.getV).take (x.val + 1))) ∧
    (∀ k, FirstStoreFault s.cfg s.index.toNat (x.val + 1) k →
      exec (.ldMemX x) s = .next
        (if RangeFails s.cfg (s.index.toNat + k)
         then haltedBy s .memRange (encode (.ldMemX x)) (s.index.toNat + k)
         else haltedBy s .fontWrite (encode (.ldMemX x)) (landing s.cfg (s.index.toNat + k))))

/-- R155: FX65 loads V0 to V[X] from I to I + X and adds X + 1 to I, or halts the core on the first address outside
memory with no register changed. -/
def Obligations.RegisterBlockIsLoaded : Prop :=
  ∀ (s : State) (x : Reg),
    ((∀ k, k ≤ x.val → ¬RangeFails s.cfg (s.index.toNat + k)) →
      ∃ t, exec (.ldXMem x) s = .next t ∧ FallsThrough [.v, .index] s t ∧
        t.index.toNat = (s.index.toNat + x.val + 1) % 65536 ∧
        (∀ r : Reg, r ≤ x → t.getV r = s.peek (landing s.cfg (s.index.toNat + r.val))) ∧
        (∀ r : Reg, x < r → t.getV r = s.getV r)) ∧
    (∀ k, FirstReadFault s.cfg s.index.toNat (x.val + 1) k →
      exec (.ldXMem x) s = .next (haltedBy s .memRange (encode (.ldXMem x)) (s.index.toNat + k)))

/-- R154, R155: a block stored by FX55 where every byte lands is loaded back by FX65 from the same I, whatever the
registers hold by then. -/
def Obligations.StoredBlockLoadsBack : Prop :=
  ∀ (s t u : State) (x : Reg), Memory.wf s.cfg.font s.mem = true → s.index.toNat + x.val < 0x1000 →
    0x04F < s.index.toNat ∨ s.cfg.fontWrite = .write → exec (.ldMemX x) s = .next t →
    u.cfg = t.cfg → u.mem = t.mem → u.index = s.index →
    ∃ w, exec (.ldXMem x) u = .next w ∧ (∀ r : Reg, r ≤ x → w.getV r = s.getV r) ∧ w.index = t.index

/-- R59, R66: a later fetch of two bytes FX55 stored reads them, the one at the lower address as bits 15:8. -/
def Obligations.FetchSeesStoredBytes : Prop :=
  ∀ (s t u : State) (x j k : Reg), Memory.wf s.cfg.font s.mem = true → s.index.toNat + x.val < 0x1000 →
    0x04F < s.index.toNat ∨ s.cfg.fontWrite = .write → exec (.ldMemX x) s = .next t →
    u.cfg = t.cfg → u.mem = t.mem → k ≤ x → k.val = j.val + 1 → u.pc.toNat = s.index.toNat + j.val →
    fetch u = .ok (s.getV j ++ s.getV k)

/-! ### Display (43_display.md) -/

/-- R170: 00E0 clears every pixel and sets redraw. -/
def Obligations.ClearScreenClearsEveryPixel : Prop :=
  ∀ s : State, ∃ t, exec .cls s = .next t ∧ (∀ r c, pixel t.fb r c = false) ∧ t.redraw = true ∧
    FallsThrough [.fb, .redraw] s t

/-- R171 to R174: DXYN toggles exactly the pixels its sprite covers, sets VF on a collision and otherwise as
P_DRAW_CLEARS_VF says, and sets redraw; or it halts the core on the first sprite byte outside memory. -/
def Obligations.DrawTogglesThePixelsOfTheSprite : Prop :=
  ∀ (s : State) (x y : Reg) (n : Nibble),
    ((∀ k, k < n.toNat → ¬RangeFails s.cfg (s.index.toNat + k)) →
      ∃ t, exec (.drw x y n) s = .next t ∧ FallsThrough [.v, .fb, .redraw] s t ∧ KeepsRegsBut [VF] s t ∧
        t.redraw = true ∧
        (∀ r c, SpriteCovers s x y n r c → pixel t.fb r c = !pixel s.fb r c) ∧
        (∀ r c, ¬SpriteCovers s x y n r c → pixel t.fb r c = pixel s.fb r c) ∧
        ((∃ r c, SpriteCovers s x y n r c ∧ pixel s.fb r c = true) → t.getV VF = 1) ∧
        ((¬∃ r c, SpriteCovers s x y n r c ∧ pixel s.fb r c = true) →
          t.getV VF = if s.cfg.drawClearsVF = true then 0 else s.getV VF)) ∧
    (∀ k, FirstReadFault s.cfg s.index.toNat n.toNat k →
      exec (.drw x y n) s = .next (haltedBy s .memRange (encode (.drw x y n)) (s.index.toNat + k)))

/-- R175: a second draw of the same sprite at the same coordinates restores the framebuffer, and collides exactly if
some sprite bit of 1 lands on a pixel that was unlit before the first. -/
def Obligations.DrawingTwiceRestoresTheFramebuffer : Prop :=
  ∀ (s t u : State) (x y : Reg) (n : Nibble), s.run = .ready →
    exec (.drw x y n) s = .next t → isHalted t = false → t.getV x = s.getV x → t.getV y = s.getV y →
    exec (.drw x y n) t = .next u →
    (∀ r c, pixel u.fb r c = pixel s.fb r c) ∧ isHalted u = false ∧
    ((∃ r c, SpriteCovers s x y n r c ∧ pixel s.fb r c = false) → u.getV VF = 1) ∧
    ((¬∃ r c, SpriteCovers s x y n r c ∧ pixel s.fb r c = false) →
      u.getV VF = if s.cfg.drawClearsVF = true then 0 else t.getV VF)

/-! ### Timers, keypad, system (44_timers_input.md, 45_system.md) -/

/-- R190 to R192: the key skips under each P_KEY_RANGE. -/
def Obligations.KeySkipsTestTheKey : Prop :=
  ∀ (s : State) (x : Reg),
    (∀ k : Key, (s.getV x).toNat = k.val →
      exec (.skp x) s = .next { s with pc := if s.key.get k = true then s.pc + 4 else s.pc + 2 } ∧
      exec (.sknp x) s = .next { s with pc := if s.key.get k = true then s.pc + 2 else s.pc + 4 }) ∧
    (0xF < (s.getV x).toNat → s.cfg.keyRange = .fault →
      exec (.skp x) s = .next (haltedBy s .keyRange (encode (.skp x)) (s.getV x).toNat) ∧
      exec (.sknp x) s = .next (haltedBy s .keyRange (encode (.sknp x)) (s.getV x).toNat)) ∧
    (∀ k : Key, 0xF < (s.getV x).toNat → s.cfg.keyRange = .mask4 → (s.getV x).toNat % 16 = k.val →
      exec (.skp x) s = .next { s with pc := if s.key.get k = true then s.pc + 4 else s.pc + 2 } ∧
      exec (.sknp x) s = .next { s with pc := if s.key.get k = true then s.pc + 2 else s.pc + 4 }) ∧
    (0xF < (s.getV x).toNat → s.cfg.keyRange = .notHeld →
      exec (.skp x) s = .next { s with pc := s.pc + 2 } ∧ exec (.sknp x) s = .next { s with pc := s.pc + 4 })

/-- R193 to R195: FX07 reads DT, FX15 and FX18 set the timers. -/
def Obligations.TimerReadAndWrites : Prop :=
  ∀ (s : State) (x : Reg),
    (∃ t, exec (.ldXDt x) s = .next t ∧ t.getV x = s.dt ∧ KeepsRegsBut [x] s t ∧ FallsThrough [.v] s t) ∧
    (∃ t, exec (.ldDtX x) s = .next t ∧ t.dt = s.getV x ∧ FallsThrough [.dt] s t) ∧
    (∃ t, exec (.ldStX x) s = .next t ∧ t.st = s.getV x ∧ FallsThrough [.st] s t)

/-- R196, R197: FX0A changes run only (and pc, as the fetch does), whatever keys are held. Through any transactions but
KEY_DOWN and STOP the core keeps waiting, only timers, keys and redraw moving, and STEP returns PENDING; a STOP halts it
with the address after the FX0A recorded; the first KEY_DOWN completes it. -/
def Obligations.WaitForKeyCompletesOnKeyDown : Prop :=
  ∀ (s : State) (x : Reg), ∃ t, exec (.ldXK x) s = .next t ∧
    t = { s with pc := s.pc + 2, run := .waitKey x } ∧
    ∀ ts : List Transaction, (∀ tr ∈ ts, tr ≠ .stop ∧ ∀ k, tr ≠ .keyDown k) →
      ∃ u, performAll ts t = .next u ∧ u.run = .waitKey x ∧ KeepsBut [.dt, .st, .key, .redraw] t u ∧
        perform .step u = .next (u, .stepped .pending) ∧
        (stop u).run = .halted .stopped ∧ (stop u).halt.pc = s.pc + 2 ∧
        ∀ k : Key, ∃ w, perform (.keyDown k) u = .next (w, .done) ∧ w.run = .ready ∧ (w.getV x).toNat = k.val ∧
          w.key.get k = true ∧ (∀ j : Key, j ≠ k → w.key.get j = u.key.get j) ∧ KeepsRegsBut [x] u w ∧
          KeepsBut [.v, .key, .run] u w

/-- R210: 0NNN under each P_SYS_POLICY. -/
def Obligations.LegacyCallFollowsThePolicy : Prop :=
  ∀ (s : State) (nnn : Imm12),
    (s.cfg.sysPolicy = .nop → exec (.sys nnn) s = .next
      { s with
        pc := s.pc + 2
        diags := s.diags ++ [{ kind := .unimplemented, word := encode (.sys nnn), addr := s.pc }] }) ∧
    (s.cfg.sysPolicy = .fatal → exec (.sys nnn) s = .next (haltedBy s .sysUnimplemented (encode (.sys nnn)) 0))

/-! ### The host's transactions (60_exceptions.md) and construction (70_reset_and_hazards.md) -/

/-- R244: ticks count each timer down to 0, where it stays; only the timers change, and nothing in Halted. A step never
counts a timer down: whatever it does (a wait, a fetch fault, an UNKNOWN word and a halted core included) it leaves DT
and ST alone, but for an FX15 or FX18 that it fetched, which writes V[X]. The same holds of exec. -/
def Obligations.TicksCountDownToZero : Prop :=
  ∀ (s : State) (n : Nat), ∃ t, performAll (List.replicate n .tick) s = .next t ∧ KeepsBut [.dt, .st] s t ∧
    (isHalted s = true → t = s) ∧
    (isHalted s = false → t.dt.toNat = s.dt.toNat - n ∧ t.st.toNat = s.st.toNat - n) ∧
    (∀ (i : Instr) (u : State), exec i s = .next u →
      ((∀ x, i ≠ .ldDtX x) → u.dt = s.dt) ∧ ((∀ x, i ≠ .ldStX x) → u.st = s.st)) ∧
    (∀ u, step s = .next u →
      (u.dt = s.dt ∨ ∃ w x, s.run = .ready ∧ fetch s = .ok w ∧ decodeWord s.cfg.strict59 w = .ok (.ldDtX x) ∧
        u.dt = s.getV x) ∧
      (u.st = s.st ∨ ∃ w x, s.run = .ready ∧ fetch s = .ok w ∧ decodeWord s.cfg.strict59 w = .ok (.ldStX x) ∧
        u.st = s.getV x))

/-- R245: the key events. -/
def Obligations.KeyEventsSetAndClearTheKey : Prop :=
  ∀ (s : State) (k : Key),
    (isHalted s = true → keyDown k s = s ∧ keyUp k s = s) ∧
    (isHalted s = false →
      (keyDown k s).key.get k = true ∧ (keyUp k s).key.get k = false ∧
      (∀ j : Key, j ≠ k → (keyDown k s).key.get j = s.key.get j ∧ (keyUp k s).key.get j = s.key.get j) ∧
      KeepsBut [.key] s (keyUp k s)) ∧
    (s.run = .ready → KeepsBut [.key] s (keyDown k s)) ∧
    (∀ x, s.run = .waitKey x → (keyDown k s).run = .ready ∧ ((keyDown k s).getV x).toNat = k.val ∧
      KeepsRegsBut [x] s (keyDown k s) ∧ KeepsBut [.v, .key, .run] s (keyDown k s))

/-- R243: STOP halts a core that is not halted and records pc. -/
def Obligations.StopHaltsAndRecordsPc : Prop :=
  ∀ s : State,
    (isHalted s = true → stop s = s) ∧ (isHalted s = false → stop s = haltedBy s .stopped 0 0)

/-- R247 to R250: the read-outs. READ_CLEAR_REDRAW returns the flag and clears it, so a second one returns 0. -/
def Obligations.ReadOutsReportTheState : Prop :=
  ∀ s : State,
    perform .snapshot s = .next (s, .pixels s.fb) ∧
    perform .status s = .next (s, .record s.run s.halt) ∧
    perform .readClearRedraw s = .next ({ s with redraw := false }, .flag s.redraw) ∧
    perform .readClearRedraw { s with redraw := false } = .next ({ s with redraw := false }, .flag false) ∧
    ((s.st = 0 ∧ perform .tone s = .next (s, .level false)) ∨ (s.st ≠ 0 ∧ perform .tone s = .next (s, .level true)))

/-- R39, R260, R261: LOAD accepts exactly the images of at most 0xE00 bytes; every element of the state it builds has
its value after construction, and the state meets the invariant. The model's own fields are
in ConstructionSetsTheModelsOwnFields. -/
def Obligations.LoadBuildsTheState : Prop :=
  ∀ (cfg : Config) (draws : Nat) (bytes : List Byte),
    (0xE00 < bytes.length → load cfg draws bytes = .error .loadTooLarge) ∧
    (bytes.length ≤ 0xE00 → ∃ s, load cfg draws bytes = .ok s ∧ Inv s ∧
      (∀ a (h : a < 80), s.peek a = cfg.font[a]) ∧
      (∀ a, 0x50 ≤ a → a < 0x200 → s.peek a = 0) ∧
      (∀ k (h : k < bytes.length), s.peek (0x200 + k) = bytes[k]) ∧
      (∀ a, 0x200 + bytes.length ≤ a → s.peek a = 0) ∧
      (∀ r, s.getV r = cfg.vInit.get r) ∧ s.index = 0 ∧ s.pc = 0x200 ∧ s.sp = 0 ∧ (∀ k, s.stackAt k = 0) ∧
      s.dt = cfg.dtInit ∧ s.st = cfg.stInit ∧ (∀ r c, pixel s.fb r c = false) ∧ s.redraw = false ∧
      (∀ k : Key, s.key.get k = false) ∧ s.run = .ready ∧ s.halt = HaltRecord.empty)

/-- R9, R230, R262: a core built by a LOAD holds the parameters it was given and starts with an empty trace; a second
LOAD keeps the parameters and starts an empty trace too. That both stand in the state, and that the random bytes go on
at the number given, or where the old core was, is the model's choice (log entries 1, 5, 6 and 12). -/
def Obligations.ConstructionSetsTheModelsOwnFields : Prop :=
  (∀ (cfg : Config) (draws : Nat) (bytes : List Byte) (s : State), load cfg draws bytes = .ok s →
    s.cfg = cfg ∧ s.diags = [] ∧ s.draws = draws) ∧
  (∀ (s t : State) (bytes : List Byte), reload s bytes = .ok t →
    t.cfg = s.cfg ∧ t.diags = [] ∧ t.draws = s.draws)

/-- R39, R262, and log entries 3, 4 and 8 (the model's choices: no image, and 0 in every V register, DT and ST): the
machine after reset. -/
def Obligations.ResetIsConstructionWithDefaults : Prop :=
  load defaultConfig 0 [] = .ok State.reset ∧ State.reset.pc = 0x200 ∧ State.reset.index = 0 ∧ State.reset.sp = 0 ∧
    State.reset.run = .ready ∧ (∀ r, State.reset.getV r = 0) ∧ State.reset.dt = 0 ∧ State.reset.st = 0
end

