-- ==== Sys2Proof/Laws/State.lean ====
section
/-!
SUPPORT. One lemma per field per update of State, each true by unfolding, so that no later proof unfolds a record
update; then the accessors of registers, memory bytes and stack entries under each update.
-/

namespace Sys2Proof.Machine

/-! ### setV -/

@[simp] theorem State.setV_v (s : State) (x : Reg) (b : Byte) : (s.setV x b).v = s.v.set x.val b x.isLt := rfl
@[simp] theorem State.setV_index (s : State) (x : Reg) (b : Byte) : (s.setV x b).index = s.index := rfl
@[simp] theorem State.setV_pc (s : State) (x : Reg) (b : Byte) : (s.setV x b).pc = s.pc := rfl
@[simp] theorem State.setV_sp (s : State) (x : Reg) (b : Byte) : (s.setV x b).sp = s.sp := rfl
@[simp] theorem State.setV_stack (s : State) (x : Reg) (b : Byte) : (s.setV x b).stack = s.stack := rfl
@[simp] theorem State.setV_dt (s : State) (x : Reg) (b : Byte) : (s.setV x b).dt = s.dt := rfl
@[simp] theorem State.setV_st (s : State) (x : Reg) (b : Byte) : (s.setV x b).st = s.st := rfl
@[simp] theorem State.setV_fb (s : State) (x : Reg) (b : Byte) : (s.setV x b).fb = s.fb := rfl
@[simp] theorem State.setV_redraw (s : State) (x : Reg) (b : Byte) : (s.setV x b).redraw = s.redraw := rfl
@[simp] theorem State.setV_key (s : State) (x : Reg) (b : Byte) : (s.setV x b).key = s.key := rfl
@[simp] theorem State.setV_run (s : State) (x : Reg) (b : Byte) : (s.setV x b).run = s.run := rfl
@[simp] theorem State.setV_halt (s : State) (x : Reg) (b : Byte) : (s.setV x b).halt = s.halt := rfl
@[simp] theorem State.setV_mem (s : State) (x : Reg) (b : Byte) : (s.setV x b).mem = s.mem := rfl
@[simp] theorem State.setV_cfg (s : State) (x : Reg) (b : Byte) : (s.setV x b).cfg = s.cfg := rfl
@[simp] theorem State.setV_draws (s : State) (x : Reg) (b : Byte) : (s.setV x b).draws = s.draws := rfl
@[simp] theorem State.setV_diags (s : State) (x : Reg) (b : Byte) : (s.setV x b).diags = s.diags := rfl
@[simp] theorem State.setV_peek (s : State) (x : Reg) (b : Byte) (e : Nat) : (s.setV x b).peek e = s.peek e := rfl
@[simp] theorem State.setV_stackAt (s : State) (x : Reg) (b : Byte) (k : Nat) : (s.setV x b).stackAt k = s.stackAt k := rfl

/-! ### setRegs -/

@[simp] theorem State.setRegs_v (s : State) (v : Vector Byte 16) : (s.setRegs v).v = v := rfl
@[simp] theorem State.setRegs_index (s : State) (v : Vector Byte 16) : (s.setRegs v).index = s.index := rfl
@[simp] theorem State.setRegs_pc (s : State) (v : Vector Byte 16) : (s.setRegs v).pc = s.pc := rfl
@[simp] theorem State.setRegs_sp (s : State) (v : Vector Byte 16) : (s.setRegs v).sp = s.sp := rfl
@[simp] theorem State.setRegs_stack (s : State) (v : Vector Byte 16) : (s.setRegs v).stack = s.stack := rfl
@[simp] theorem State.setRegs_dt (s : State) (v : Vector Byte 16) : (s.setRegs v).dt = s.dt := rfl
@[simp] theorem State.setRegs_st (s : State) (v : Vector Byte 16) : (s.setRegs v).st = s.st := rfl
@[simp] theorem State.setRegs_fb (s : State) (v : Vector Byte 16) : (s.setRegs v).fb = s.fb := rfl
@[simp] theorem State.setRegs_redraw (s : State) (v : Vector Byte 16) : (s.setRegs v).redraw = s.redraw := rfl
@[simp] theorem State.setRegs_key (s : State) (v : Vector Byte 16) : (s.setRegs v).key = s.key := rfl
@[simp] theorem State.setRegs_run (s : State) (v : Vector Byte 16) : (s.setRegs v).run = s.run := rfl
@[simp] theorem State.setRegs_halt (s : State) (v : Vector Byte 16) : (s.setRegs v).halt = s.halt := rfl
@[simp] theorem State.setRegs_mem (s : State) (v : Vector Byte 16) : (s.setRegs v).mem = s.mem := rfl
@[simp] theorem State.setRegs_cfg (s : State) (v : Vector Byte 16) : (s.setRegs v).cfg = s.cfg := rfl
@[simp] theorem State.setRegs_draws (s : State) (v : Vector Byte 16) : (s.setRegs v).draws = s.draws := rfl
@[simp] theorem State.setRegs_diags (s : State) (v : Vector Byte 16) : (s.setRegs v).diags = s.diags := rfl
@[simp] theorem State.setRegs_getV (s : State) (v : Vector Byte 16) (r : Reg) : (s.setRegs v).getV r = v.get r := rfl
@[simp] theorem State.setRegs_peek (s : State) (v : Vector Byte 16) (e : Nat) : (s.setRegs v).peek e = s.peek e := rfl
@[simp] theorem State.setRegs_stackAt (s : State) (v : Vector Byte 16) (k : Nat) : (s.setRegs v).stackAt k = s.stackAt k := rfl

/-! ### setPc -/

@[simp] theorem State.setPc_v (s : State) (a : Word) : (s.setPc a).v = s.v := rfl
@[simp] theorem State.setPc_index (s : State) (a : Word) : (s.setPc a).index = s.index := rfl
@[simp] theorem State.setPc_pc (s : State) (a : Word) : (s.setPc a).pc = a := rfl
@[simp] theorem State.setPc_sp (s : State) (a : Word) : (s.setPc a).sp = s.sp := rfl
@[simp] theorem State.setPc_stack (s : State) (a : Word) : (s.setPc a).stack = s.stack := rfl
@[simp] theorem State.setPc_dt (s : State) (a : Word) : (s.setPc a).dt = s.dt := rfl
@[simp] theorem State.setPc_st (s : State) (a : Word) : (s.setPc a).st = s.st := rfl
@[simp] theorem State.setPc_fb (s : State) (a : Word) : (s.setPc a).fb = s.fb := rfl
@[simp] theorem State.setPc_redraw (s : State) (a : Word) : (s.setPc a).redraw = s.redraw := rfl
@[simp] theorem State.setPc_key (s : State) (a : Word) : (s.setPc a).key = s.key := rfl
@[simp] theorem State.setPc_run (s : State) (a : Word) : (s.setPc a).run = s.run := rfl
@[simp] theorem State.setPc_halt (s : State) (a : Word) : (s.setPc a).halt = s.halt := rfl
@[simp] theorem State.setPc_mem (s : State) (a : Word) : (s.setPc a).mem = s.mem := rfl
@[simp] theorem State.setPc_cfg (s : State) (a : Word) : (s.setPc a).cfg = s.cfg := rfl
@[simp] theorem State.setPc_draws (s : State) (a : Word) : (s.setPc a).draws = s.draws := rfl
@[simp] theorem State.setPc_diags (s : State) (a : Word) : (s.setPc a).diags = s.diags := rfl
@[simp] theorem State.setPc_getV (s : State) (a : Word) (r : Reg) : (s.setPc a).getV r = s.getV r := rfl
@[simp] theorem State.setPc_peek (s : State) (a : Word) (e : Nat) : (s.setPc a).peek e = s.peek e := rfl
@[simp] theorem State.setPc_stackAt (s : State) (a : Word) (k : Nat) : (s.setPc a).stackAt k = s.stackAt k := rfl

/-! ### setIndex -/

@[simp] theorem State.setIndex_v (s : State) (a : Word) : (s.setIndex a).v = s.v := rfl
@[simp] theorem State.setIndex_index (s : State) (a : Word) : (s.setIndex a).index = a := rfl
@[simp] theorem State.setIndex_pc (s : State) (a : Word) : (s.setIndex a).pc = s.pc := rfl
@[simp] theorem State.setIndex_sp (s : State) (a : Word) : (s.setIndex a).sp = s.sp := rfl
@[simp] theorem State.setIndex_stack (s : State) (a : Word) : (s.setIndex a).stack = s.stack := rfl
@[simp] theorem State.setIndex_dt (s : State) (a : Word) : (s.setIndex a).dt = s.dt := rfl
@[simp] theorem State.setIndex_st (s : State) (a : Word) : (s.setIndex a).st = s.st := rfl
@[simp] theorem State.setIndex_fb (s : State) (a : Word) : (s.setIndex a).fb = s.fb := rfl
@[simp] theorem State.setIndex_redraw (s : State) (a : Word) : (s.setIndex a).redraw = s.redraw := rfl
@[simp] theorem State.setIndex_key (s : State) (a : Word) : (s.setIndex a).key = s.key := rfl
@[simp] theorem State.setIndex_run (s : State) (a : Word) : (s.setIndex a).run = s.run := rfl
@[simp] theorem State.setIndex_halt (s : State) (a : Word) : (s.setIndex a).halt = s.halt := rfl
@[simp] theorem State.setIndex_mem (s : State) (a : Word) : (s.setIndex a).mem = s.mem := rfl
@[simp] theorem State.setIndex_cfg (s : State) (a : Word) : (s.setIndex a).cfg = s.cfg := rfl
@[simp] theorem State.setIndex_draws (s : State) (a : Word) : (s.setIndex a).draws = s.draws := rfl
@[simp] theorem State.setIndex_diags (s : State) (a : Word) : (s.setIndex a).diags = s.diags := rfl
@[simp] theorem State.setIndex_getV (s : State) (a : Word) (r : Reg) : (s.setIndex a).getV r = s.getV r := rfl
@[simp] theorem State.setIndex_peek (s : State) (a : Word) (e : Nat) : (s.setIndex a).peek e = s.peek e := rfl
@[simp] theorem State.setIndex_stackAt (s : State) (a : Word) (k : Nat) : (s.setIndex a).stackAt k = s.stackAt k := rfl

/-! ### setDt -/

@[simp] theorem State.setDt_v (s : State) (b : Byte) : (s.setDt b).v = s.v := rfl
@[simp] theorem State.setDt_index (s : State) (b : Byte) : (s.setDt b).index = s.index := rfl
@[simp] theorem State.setDt_pc (s : State) (b : Byte) : (s.setDt b).pc = s.pc := rfl
@[simp] theorem State.setDt_sp (s : State) (b : Byte) : (s.setDt b).sp = s.sp := rfl
@[simp] theorem State.setDt_stack (s : State) (b : Byte) : (s.setDt b).stack = s.stack := rfl
@[simp] theorem State.setDt_dt (s : State) (b : Byte) : (s.setDt b).dt = b := rfl
@[simp] theorem State.setDt_st (s : State) (b : Byte) : (s.setDt b).st = s.st := rfl
@[simp] theorem State.setDt_fb (s : State) (b : Byte) : (s.setDt b).fb = s.fb := rfl
@[simp] theorem State.setDt_redraw (s : State) (b : Byte) : (s.setDt b).redraw = s.redraw := rfl
@[simp] theorem State.setDt_key (s : State) (b : Byte) : (s.setDt b).key = s.key := rfl
@[simp] theorem State.setDt_run (s : State) (b : Byte) : (s.setDt b).run = s.run := rfl
@[simp] theorem State.setDt_halt (s : State) (b : Byte) : (s.setDt b).halt = s.halt := rfl
@[simp] theorem State.setDt_mem (s : State) (b : Byte) : (s.setDt b).mem = s.mem := rfl
@[simp] theorem State.setDt_cfg (s : State) (b : Byte) : (s.setDt b).cfg = s.cfg := rfl
@[simp] theorem State.setDt_draws (s : State) (b : Byte) : (s.setDt b).draws = s.draws := rfl
@[simp] theorem State.setDt_diags (s : State) (b : Byte) : (s.setDt b).diags = s.diags := rfl
@[simp] theorem State.setDt_getV (s : State) (b : Byte) (r : Reg) : (s.setDt b).getV r = s.getV r := rfl
@[simp] theorem State.setDt_peek (s : State) (b : Byte) (e : Nat) : (s.setDt b).peek e = s.peek e := rfl
@[simp] theorem State.setDt_stackAt (s : State) (b : Byte) (k : Nat) : (s.setDt b).stackAt k = s.stackAt k := rfl

/-! ### setSt -/

@[simp] theorem State.setSt_v (s : State) (b : Byte) : (s.setSt b).v = s.v := rfl
@[simp] theorem State.setSt_index (s : State) (b : Byte) : (s.setSt b).index = s.index := rfl
@[simp] theorem State.setSt_pc (s : State) (b : Byte) : (s.setSt b).pc = s.pc := rfl
@[simp] theorem State.setSt_sp (s : State) (b : Byte) : (s.setSt b).sp = s.sp := rfl
@[simp] theorem State.setSt_stack (s : State) (b : Byte) : (s.setSt b).stack = s.stack := rfl
@[simp] theorem State.setSt_dt (s : State) (b : Byte) : (s.setSt b).dt = s.dt := rfl
@[simp] theorem State.setSt_st (s : State) (b : Byte) : (s.setSt b).st = b := rfl
@[simp] theorem State.setSt_fb (s : State) (b : Byte) : (s.setSt b).fb = s.fb := rfl
@[simp] theorem State.setSt_redraw (s : State) (b : Byte) : (s.setSt b).redraw = s.redraw := rfl
@[simp] theorem State.setSt_key (s : State) (b : Byte) : (s.setSt b).key = s.key := rfl
@[simp] theorem State.setSt_run (s : State) (b : Byte) : (s.setSt b).run = s.run := rfl
@[simp] theorem State.setSt_halt (s : State) (b : Byte) : (s.setSt b).halt = s.halt := rfl
@[simp] theorem State.setSt_mem (s : State) (b : Byte) : (s.setSt b).mem = s.mem := rfl
@[simp] theorem State.setSt_cfg (s : State) (b : Byte) : (s.setSt b).cfg = s.cfg := rfl
@[simp] theorem State.setSt_draws (s : State) (b : Byte) : (s.setSt b).draws = s.draws := rfl
@[simp] theorem State.setSt_diags (s : State) (b : Byte) : (s.setSt b).diags = s.diags := rfl
@[simp] theorem State.setSt_getV (s : State) (b : Byte) (r : Reg) : (s.setSt b).getV r = s.getV r := rfl
@[simp] theorem State.setSt_peek (s : State) (b : Byte) (e : Nat) : (s.setSt b).peek e = s.peek e := rfl
@[simp] theorem State.setSt_stackAt (s : State) (b : Byte) (k : Nat) : (s.setSt b).stackAt k = s.stackAt k := rfl

/-! ### setRun -/

@[simp] theorem State.setRun_v (s : State) (r : RunState) : (s.setRun r).v = s.v := rfl
@[simp] theorem State.setRun_index (s : State) (r : RunState) : (s.setRun r).index = s.index := rfl
@[simp] theorem State.setRun_pc (s : State) (r : RunState) : (s.setRun r).pc = s.pc := rfl
@[simp] theorem State.setRun_sp (s : State) (r : RunState) : (s.setRun r).sp = s.sp := rfl
@[simp] theorem State.setRun_stack (s : State) (r : RunState) : (s.setRun r).stack = s.stack := rfl
@[simp] theorem State.setRun_dt (s : State) (r : RunState) : (s.setRun r).dt = s.dt := rfl
@[simp] theorem State.setRun_st (s : State) (r : RunState) : (s.setRun r).st = s.st := rfl
@[simp] theorem State.setRun_fb (s : State) (r : RunState) : (s.setRun r).fb = s.fb := rfl
@[simp] theorem State.setRun_redraw (s : State) (r : RunState) : (s.setRun r).redraw = s.redraw := rfl
@[simp] theorem State.setRun_key (s : State) (r : RunState) : (s.setRun r).key = s.key := rfl
@[simp] theorem State.setRun_run (s : State) (r : RunState) : (s.setRun r).run = r := rfl
@[simp] theorem State.setRun_halt (s : State) (r : RunState) : (s.setRun r).halt = s.halt := rfl
@[simp] theorem State.setRun_mem (s : State) (r : RunState) : (s.setRun r).mem = s.mem := rfl
@[simp] theorem State.setRun_cfg (s : State) (r : RunState) : (s.setRun r).cfg = s.cfg := rfl
@[simp] theorem State.setRun_draws (s : State) (r : RunState) : (s.setRun r).draws = s.draws := rfl
@[simp] theorem State.setRun_diags (s : State) (r : RunState) : (s.setRun r).diags = s.diags := rfl
@[simp] theorem State.setRun_getV (s : State) (n : RunState) (r : Reg) : (s.setRun n).getV r = s.getV r := rfl
@[simp] theorem State.setRun_peek (s : State) (r : RunState) (e : Nat) : (s.setRun r).peek e = s.peek e := rfl
@[simp] theorem State.setRun_stackAt (s : State) (r : RunState) (k : Nat) : (s.setRun r).stackAt k = s.stackAt k := rfl

/-! ### setFb -/

@[simp] theorem State.setFb_v (s : State) (p : Framebuffer) : (s.setFb p).v = s.v := rfl
@[simp] theorem State.setFb_index (s : State) (p : Framebuffer) : (s.setFb p).index = s.index := rfl
@[simp] theorem State.setFb_pc (s : State) (p : Framebuffer) : (s.setFb p).pc = s.pc := rfl
@[simp] theorem State.setFb_sp (s : State) (p : Framebuffer) : (s.setFb p).sp = s.sp := rfl
@[simp] theorem State.setFb_stack (s : State) (p : Framebuffer) : (s.setFb p).stack = s.stack := rfl
@[simp] theorem State.setFb_dt (s : State) (p : Framebuffer) : (s.setFb p).dt = s.dt := rfl
@[simp] theorem State.setFb_st (s : State) (p : Framebuffer) : (s.setFb p).st = s.st := rfl
@[simp] theorem State.setFb_fb (s : State) (p : Framebuffer) : (s.setFb p).fb = p := rfl
@[simp] theorem State.setFb_redraw (s : State) (p : Framebuffer) : (s.setFb p).redraw = true := rfl
@[simp] theorem State.setFb_key (s : State) (p : Framebuffer) : (s.setFb p).key = s.key := rfl
@[simp] theorem State.setFb_run (s : State) (p : Framebuffer) : (s.setFb p).run = s.run := rfl
@[simp] theorem State.setFb_halt (s : State) (p : Framebuffer) : (s.setFb p).halt = s.halt := rfl
@[simp] theorem State.setFb_mem (s : State) (p : Framebuffer) : (s.setFb p).mem = s.mem := rfl
@[simp] theorem State.setFb_cfg (s : State) (p : Framebuffer) : (s.setFb p).cfg = s.cfg := rfl
@[simp] theorem State.setFb_draws (s : State) (p : Framebuffer) : (s.setFb p).draws = s.draws := rfl
@[simp] theorem State.setFb_diags (s : State) (p : Framebuffer) : (s.setFb p).diags = s.diags := rfl
@[simp] theorem State.setFb_getV (s : State) (p : Framebuffer) (r : Reg) : (s.setFb p).getV r = s.getV r := rfl
@[simp] theorem State.setFb_peek (s : State) (p : Framebuffer) (e : Nat) : (s.setFb p).peek e = s.peek e := rfl
@[simp] theorem State.setFb_stackAt (s : State) (p : Framebuffer) (k : Nat) : (s.setFb p).stackAt k = s.stackAt k := rfl

/-! ### setKey -/

@[simp] theorem State.setKey_v (s : State) (k : Key) (b : Bool) : (s.setKey k b).v = s.v := rfl
@[simp] theorem State.setKey_index (s : State) (k : Key) (b : Bool) : (s.setKey k b).index = s.index := rfl
@[simp] theorem State.setKey_pc (s : State) (k : Key) (b : Bool) : (s.setKey k b).pc = s.pc := rfl
@[simp] theorem State.setKey_sp (s : State) (k : Key) (b : Bool) : (s.setKey k b).sp = s.sp := rfl
@[simp] theorem State.setKey_stack (s : State) (k : Key) (b : Bool) : (s.setKey k b).stack = s.stack := rfl
@[simp] theorem State.setKey_dt (s : State) (k : Key) (b : Bool) : (s.setKey k b).dt = s.dt := rfl
@[simp] theorem State.setKey_st (s : State) (k : Key) (b : Bool) : (s.setKey k b).st = s.st := rfl
@[simp] theorem State.setKey_fb (s : State) (k : Key) (b : Bool) : (s.setKey k b).fb = s.fb := rfl
@[simp] theorem State.setKey_redraw (s : State) (k : Key) (b : Bool) : (s.setKey k b).redraw = s.redraw := rfl
@[simp] theorem State.setKey_key (s : State) (k : Key) (b : Bool) : (s.setKey k b).key = s.key.set k.val b k.isLt := rfl
@[simp] theorem State.setKey_run (s : State) (k : Key) (b : Bool) : (s.setKey k b).run = s.run := rfl
@[simp] theorem State.setKey_halt (s : State) (k : Key) (b : Bool) : (s.setKey k b).halt = s.halt := rfl
@[simp] theorem State.setKey_mem (s : State) (k : Key) (b : Bool) : (s.setKey k b).mem = s.mem := rfl
@[simp] theorem State.setKey_cfg (s : State) (k : Key) (b : Bool) : (s.setKey k b).cfg = s.cfg := rfl
@[simp] theorem State.setKey_draws (s : State) (k : Key) (b : Bool) : (s.setKey k b).draws = s.draws := rfl
@[simp] theorem State.setKey_diags (s : State) (k : Key) (b : Bool) : (s.setKey k b).diags = s.diags := rfl
@[simp] theorem State.setKey_getV (s : State) (k : Key) (b : Bool) (r : Reg) : (s.setKey k b).getV r = s.getV r := rfl
@[simp] theorem State.setKey_peek (s : State) (k : Key) (b : Bool) (e : Nat) : (s.setKey k b).peek e = s.peek e := rfl
@[simp] theorem State.setKey_stackAt (s : State) (i : Key) (b : Bool) (k : Nat) : (s.setKey i b).stackAt k = s.stackAt k := rfl

/-! ### setMem -/

@[simp] theorem State.setMem_v (s : State) (m : Memory) : (s.setMem m).v = s.v := rfl
@[simp] theorem State.setMem_index (s : State) (m : Memory) : (s.setMem m).index = s.index := rfl
@[simp] theorem State.setMem_pc (s : State) (m : Memory) : (s.setMem m).pc = s.pc := rfl
@[simp] theorem State.setMem_sp (s : State) (m : Memory) : (s.setMem m).sp = s.sp := rfl
@[simp] theorem State.setMem_stack (s : State) (m : Memory) : (s.setMem m).stack = s.stack := rfl
@[simp] theorem State.setMem_dt (s : State) (m : Memory) : (s.setMem m).dt = s.dt := rfl
@[simp] theorem State.setMem_st (s : State) (m : Memory) : (s.setMem m).st = s.st := rfl
@[simp] theorem State.setMem_fb (s : State) (m : Memory) : (s.setMem m).fb = s.fb := rfl
@[simp] theorem State.setMem_redraw (s : State) (m : Memory) : (s.setMem m).redraw = s.redraw := rfl
@[simp] theorem State.setMem_key (s : State) (m : Memory) : (s.setMem m).key = s.key := rfl
@[simp] theorem State.setMem_run (s : State) (m : Memory) : (s.setMem m).run = s.run := rfl
@[simp] theorem State.setMem_halt (s : State) (m : Memory) : (s.setMem m).halt = s.halt := rfl
@[simp] theorem State.setMem_mem (s : State) (m : Memory) : (s.setMem m).mem = m := rfl
@[simp] theorem State.setMem_cfg (s : State) (m : Memory) : (s.setMem m).cfg = s.cfg := rfl
@[simp] theorem State.setMem_draws (s : State) (m : Memory) : (s.setMem m).draws = s.draws := rfl
@[simp] theorem State.setMem_diags (s : State) (m : Memory) : (s.setMem m).diags = s.diags := rfl
@[simp] theorem State.setMem_getV (s : State) (m : Memory) (r : Reg) : (s.setMem m).getV r = s.getV r := rfl
@[simp] theorem State.setMem_stackAt (s : State) (m : Memory) (k : Nat) : (s.setMem m).stackAt k = s.stackAt k := rfl

/-! ### emit -/

@[simp] theorem State.emit_v (s : State) (d : Diag) : (s.emit d).v = s.v := rfl
@[simp] theorem State.emit_index (s : State) (d : Diag) : (s.emit d).index = s.index := rfl
@[simp] theorem State.emit_pc (s : State) (d : Diag) : (s.emit d).pc = s.pc := rfl
@[simp] theorem State.emit_sp (s : State) (d : Diag) : (s.emit d).sp = s.sp := rfl
@[simp] theorem State.emit_stack (s : State) (d : Diag) : (s.emit d).stack = s.stack := rfl
@[simp] theorem State.emit_dt (s : State) (d : Diag) : (s.emit d).dt = s.dt := rfl
@[simp] theorem State.emit_st (s : State) (d : Diag) : (s.emit d).st = s.st := rfl
@[simp] theorem State.emit_fb (s : State) (d : Diag) : (s.emit d).fb = s.fb := rfl
@[simp] theorem State.emit_redraw (s : State) (d : Diag) : (s.emit d).redraw = s.redraw := rfl
@[simp] theorem State.emit_key (s : State) (d : Diag) : (s.emit d).key = s.key := rfl
@[simp] theorem State.emit_run (s : State) (d : Diag) : (s.emit d).run = s.run := rfl
@[simp] theorem State.emit_halt (s : State) (d : Diag) : (s.emit d).halt = s.halt := rfl
@[simp] theorem State.emit_mem (s : State) (d : Diag) : (s.emit d).mem = s.mem := rfl
@[simp] theorem State.emit_cfg (s : State) (d : Diag) : (s.emit d).cfg = s.cfg := rfl
@[simp] theorem State.emit_draws (s : State) (d : Diag) : (s.emit d).draws = s.draws := rfl
@[simp] theorem State.emit_diags (s : State) (d : Diag) : (s.emit d).diags = s.diags ++ [d] := rfl
@[simp] theorem State.emit_getV (s : State) (d : Diag) (r : Reg) : (s.emit d).getV r = s.getV r := rfl
@[simp] theorem State.emit_peek (s : State) (d : Diag) (e : Nat) : (s.emit d).peek e = s.peek e := rfl
@[simp] theorem State.emit_stackAt (s : State) (d : Diag) (k : Nat) : (s.emit d).stackAt k = s.stackAt k := rfl

/-! ### drawn -/

@[simp] theorem State.drawn_v (s : State) : (s.drawn).v = s.v := rfl
@[simp] theorem State.drawn_index (s : State) : (s.drawn).index = s.index := rfl
@[simp] theorem State.drawn_pc (s : State) : (s.drawn).pc = s.pc := rfl
@[simp] theorem State.drawn_sp (s : State) : (s.drawn).sp = s.sp := rfl
@[simp] theorem State.drawn_stack (s : State) : (s.drawn).stack = s.stack := rfl
@[simp] theorem State.drawn_dt (s : State) : (s.drawn).dt = s.dt := rfl
@[simp] theorem State.drawn_st (s : State) : (s.drawn).st = s.st := rfl
@[simp] theorem State.drawn_fb (s : State) : (s.drawn).fb = s.fb := rfl
@[simp] theorem State.drawn_redraw (s : State) : (s.drawn).redraw = s.redraw := rfl
@[simp] theorem State.drawn_key (s : State) : (s.drawn).key = s.key := rfl
@[simp] theorem State.drawn_run (s : State) : (s.drawn).run = s.run := rfl
@[simp] theorem State.drawn_halt (s : State) : (s.drawn).halt = s.halt := rfl
@[simp] theorem State.drawn_mem (s : State) : (s.drawn).mem = s.mem := rfl
@[simp] theorem State.drawn_cfg (s : State) : (s.drawn).cfg = s.cfg := rfl
@[simp] theorem State.drawn_draws (s : State) : (s.drawn).draws = s.draws + 1 := rfl
@[simp] theorem State.drawn_diags (s : State) : (s.drawn).diags = s.diags := rfl
@[simp] theorem State.drawn_getV (s : State) (r : Reg) : (s.drawn).getV r = s.getV r := rfl
@[simp] theorem State.drawn_peek (s : State) (e : Nat) : (s.drawn).peek e = s.peek e := rfl
@[simp] theorem State.drawn_stackAt (s : State) (k : Nat) : (s.drawn).stackAt k = s.stackAt k := rfl

/-! ### advance -/

@[simp] theorem State.advance_v (s : State) : (s.advance).v = s.v := rfl
@[simp] theorem State.advance_index (s : State) : (s.advance).index = s.index := rfl
@[simp] theorem State.advance_pc (s : State) : (s.advance).pc = s.pc + 2 := rfl
@[simp] theorem State.advance_sp (s : State) : (s.advance).sp = s.sp := rfl
@[simp] theorem State.advance_stack (s : State) : (s.advance).stack = s.stack := rfl
@[simp] theorem State.advance_dt (s : State) : (s.advance).dt = s.dt := rfl
@[simp] theorem State.advance_st (s : State) : (s.advance).st = s.st := rfl
@[simp] theorem State.advance_fb (s : State) : (s.advance).fb = s.fb := rfl
@[simp] theorem State.advance_redraw (s : State) : (s.advance).redraw = s.redraw := rfl
@[simp] theorem State.advance_key (s : State) : (s.advance).key = s.key := rfl
@[simp] theorem State.advance_run (s : State) : (s.advance).run = s.run := rfl
@[simp] theorem State.advance_halt (s : State) : (s.advance).halt = s.halt := rfl
@[simp] theorem State.advance_mem (s : State) : (s.advance).mem = s.mem := rfl
@[simp] theorem State.advance_cfg (s : State) : (s.advance).cfg = s.cfg := rfl
@[simp] theorem State.advance_draws (s : State) : (s.advance).draws = s.draws := rfl
@[simp] theorem State.advance_diags (s : State) : (s.advance).diags = s.diags := rfl
@[simp] theorem State.advance_getV (s : State) (r : Reg) : (s.advance).getV r = s.getV r := rfl
@[simp] theorem State.advance_peek (s : State) (e : Nat) : (s.advance).peek e = s.peek e := rfl
@[simp] theorem State.advance_stackAt (s : State) (k : Nat) : (s.advance).stackAt k = s.stackAt k := rfl

/-! ### push -/

@[simp] theorem State.push_v (s : State) (a : Word) : (s.push a).v = s.v := rfl
@[simp] theorem State.push_index (s : State) (a : Word) : (s.push a).index = s.index := rfl
@[simp] theorem State.push_pc (s : State) (a : Word) : (s.push a).pc = s.pc := rfl
@[simp] theorem State.push_sp (s : State) (a : Word) : (s.push a).sp = s.sp + 1 := rfl
@[simp] theorem State.push_stack (s : State) (a : Word) : (s.push a).stack = s.stack.setIfInBounds s.sp.toNat a := rfl
@[simp] theorem State.push_dt (s : State) (a : Word) : (s.push a).dt = s.dt := rfl
@[simp] theorem State.push_st (s : State) (a : Word) : (s.push a).st = s.st := rfl
@[simp] theorem State.push_fb (s : State) (a : Word) : (s.push a).fb = s.fb := rfl
@[simp] theorem State.push_redraw (s : State) (a : Word) : (s.push a).redraw = s.redraw := rfl
@[simp] theorem State.push_key (s : State) (a : Word) : (s.push a).key = s.key := rfl
@[simp] theorem State.push_run (s : State) (a : Word) : (s.push a).run = s.run := rfl
@[simp] theorem State.push_halt (s : State) (a : Word) : (s.push a).halt = s.halt := rfl
@[simp] theorem State.push_mem (s : State) (a : Word) : (s.push a).mem = s.mem := rfl
@[simp] theorem State.push_cfg (s : State) (a : Word) : (s.push a).cfg = s.cfg := rfl
@[simp] theorem State.push_draws (s : State) (a : Word) : (s.push a).draws = s.draws := rfl
@[simp] theorem State.push_diags (s : State) (a : Word) : (s.push a).diags = s.diags := rfl
@[simp] theorem State.push_getV (s : State) (a : Word) (r : Reg) : (s.push a).getV r = s.getV r := rfl
@[simp] theorem State.push_peek (s : State) (a : Word) (e : Nat) : (s.push a).peek e = s.peek e := rfl

/-! ### drop -/

@[simp] theorem State.drop_v (s : State) : (s.drop).v = s.v := rfl
@[simp] theorem State.drop_index (s : State) : (s.drop).index = s.index := rfl
@[simp] theorem State.drop_pc (s : State) : (s.drop).pc = s.pc := rfl
@[simp] theorem State.drop_sp (s : State) : (s.drop).sp = s.sp - 1 := rfl
@[simp] theorem State.drop_stack (s : State) : (s.drop).stack = s.stack := rfl
@[simp] theorem State.drop_dt (s : State) : (s.drop).dt = s.dt := rfl
@[simp] theorem State.drop_st (s : State) : (s.drop).st = s.st := rfl
@[simp] theorem State.drop_fb (s : State) : (s.drop).fb = s.fb := rfl
@[simp] theorem State.drop_redraw (s : State) : (s.drop).redraw = s.redraw := rfl
@[simp] theorem State.drop_key (s : State) : (s.drop).key = s.key := rfl
@[simp] theorem State.drop_run (s : State) : (s.drop).run = s.run := rfl
@[simp] theorem State.drop_halt (s : State) : (s.drop).halt = s.halt := rfl
@[simp] theorem State.drop_mem (s : State) : (s.drop).mem = s.mem := rfl
@[simp] theorem State.drop_cfg (s : State) : (s.drop).cfg = s.cfg := rfl
@[simp] theorem State.drop_draws (s : State) : (s.drop).draws = s.draws := rfl
@[simp] theorem State.drop_diags (s : State) : (s.drop).diags = s.diags := rfl
@[simp] theorem State.drop_getV (s : State) (r : Reg) : (s.drop).getV r = s.getV r := rfl
@[simp] theorem State.drop_peek (s : State) (e : Nat) : (s.drop).peek e = s.peek e := rfl
@[simp] theorem State.drop_stackAt (s : State) (k : Nat) : (s.drop).stackAt k = s.stackAt k := rfl

/-! ### takeFault -/

@[simp] theorem takeFault_v (e : Raised) (a w : Word) (s : State) : (takeFault e a w s).v = s.v := rfl
@[simp] theorem takeFault_index (e : Raised) (a w : Word) (s : State) : (takeFault e a w s).index = s.index := rfl
@[simp] theorem takeFault_pc (e : Raised) (a w : Word) (s : State) : (takeFault e a w s).pc = s.pc := rfl
@[simp] theorem takeFault_sp (e : Raised) (a w : Word) (s : State) : (takeFault e a w s).sp = s.sp := rfl
@[simp] theorem takeFault_stack (e : Raised) (a w : Word) (s : State) : (takeFault e a w s).stack = s.stack := rfl
@[simp] theorem takeFault_dt (e : Raised) (a w : Word) (s : State) : (takeFault e a w s).dt = s.dt := rfl
@[simp] theorem takeFault_st (e : Raised) (a w : Word) (s : State) : (takeFault e a w s).st = s.st := rfl
@[simp] theorem takeFault_fb (e : Raised) (a w : Word) (s : State) : (takeFault e a w s).fb = s.fb := rfl
@[simp] theorem takeFault_redraw (e : Raised) (a w : Word) (s : State) : (takeFault e a w s).redraw = s.redraw := rfl
@[simp] theorem takeFault_key (e : Raised) (a w : Word) (s : State) : (takeFault e a w s).key = s.key := rfl
@[simp] theorem takeFault_run (e : Raised) (a w : Word) (s : State) : (takeFault e a w s).run = .halted e.cause := rfl
@[simp] theorem takeFault_halt (e : Raised) (a w : Word) (s : State) : (takeFault e a w s).halt =
    { cause := some e.cause, pc := a, word := if e.cause = .fetchRange then 0 else w, addr := BitVec.ofNat 16 e.info } := rfl
@[simp] theorem takeFault_mem (e : Raised) (a w : Word) (s : State) : (takeFault e a w s).mem = s.mem := rfl
@[simp] theorem takeFault_cfg (e : Raised) (a w : Word) (s : State) : (takeFault e a w s).cfg = s.cfg := rfl
@[simp] theorem takeFault_draws (e : Raised) (a w : Word) (s : State) : (takeFault e a w s).draws = s.draws := rfl
@[simp] theorem takeFault_diags (e : Raised) (a w : Word) (s : State) : (takeFault e a w s).diags = s.diags := rfl
@[simp] theorem takeFault_getV (e : Raised) (a w : Word) (s : State) (r : Reg) : (takeFault e a w s).getV r = s.getV r := rfl
@[simp] theorem takeFault_peek (e : Raised) (a w : Word) (s : State) (r : Nat) : (takeFault e a w s).peek r = s.peek r := rfl
@[simp] theorem takeFault_stackAt (e : Raised) (a w : Word) (s : State) (r : Nat) : (takeFault e a w s).stackAt r = s.stackAt r := rfl

/-! ### Registers, read after write -/

@[simp] theorem State.setV_getV (s : State) (x r : Reg) (b : Byte) :
    (s.setV x b).getV r = if r = x then b else s.getV r := by
  simp only [State.getV, State.setV, Vector.get_eq_getElem, Vector.getElem_set, Fin.ext_iff, eq_comm]

/-- Two writes of one register leave the second. -/
theorem State.setV_setV_same (s : State) (x : Reg) (a b : Byte) : (s.setV x a).setV x b = s.setV x b := by
  simp [State.setV, Vector.set_set]

/-- Writing a register's own value changes nothing. -/
theorem State.setV_getV_self (s : State) (x : Reg) : s.setV x (s.getV x) = s := by
  simp [State.setV, State.getV, Vector.get_eq_getElem]

/-- Writes of two registers commute. -/
theorem State.setV_comm (s : State) {x y : Reg} (h : x ≠ y) (a b : Byte) :
    (s.setV x a).setV y b = (s.setV y b).setV x a := by
  have h' : (x : Nat) ≠ y := fun e => h (Fin.ext e)
  simp [State.setV, Vector.set_comm _ _ h']

/-! ### The return stack -/

/-- A push is seen in its slot and in no other (R103). -/
theorem State.push_stackAt (s : State) (a : Word) (k : Nat) (h : s.sp.toNat < stackDepth) :
    (s.push a).stackAt k = if k = s.sp.toNat then a else s.stackAt k := by
  simp only [State.stackAt, State.push_stack, Vector.getElem?_setIfInBounds]
  by_cases hk : k = s.sp.toNat
  · subst hk; simp [show s.sp.toNat < 16 from h]
  · simp [hk, Ne.symm hk]

end Sys2Proof.Machine
end

