-- ==== Sys2Proof/Laws/Memory.lean ====
section
/-!
SUPPORT. Memory: a read after a write, the canonical form, which every operation keeps, and that canonical memories
that read the same are the same list.
-/

namespace Sys2Proof.Machine

variable {font : Font}

theorem canonicalFrom_cons {low a : Nat} {b : Byte} {rest : Memory} :
    canonicalFrom font low ((a, b) :: rest) = true ↔
      low ≤ a ∧ a < memSize ∧ b ≠ background font a ∧ canonicalFrom font (a + 1) rest = true := by
  simp [canonicalFrom, and_assoc]

/-- A canonical list is canonical above any lower bound. -/
theorem canonicalFrom_mono {low low' : Nat} (h : low' ≤ low) :
    ∀ {m : Memory}, canonicalFrom font low m = true → canonicalFrom font low' m = true
  | [], _ => rfl
  | (_, _) :: _, hm => by
    rw [canonicalFrom_cons] at hm ⊢
    exact ⟨h.trans hm.1, hm.2⟩

/-- Below the lowest listed address memory reads as after construction. -/
theorem readCell_below {low a : Nat} (h : a < low) :
    ∀ {m : Memory}, canonicalFrom font low m = true → readCell font a m = background font a
  | [], _ => rfl
  | (a', b) :: rest, hm => by
    rw [canonicalFrom_cons] at hm
    have : a' ≠ a := by omega
    simp only [readCell, this, if_false]
    exact readCell_below (by omega) hm.2.2.2

theorem readCell_consCell_of_ne {a x : Nat} (h : x ≠ a) (b : Byte) (rest : Memory) :
    readCell font x (consCell font a b rest) = readCell font x rest := by
  unfold consCell
  split
  · rfl
  · simp [readCell, Ne.symm h]

theorem readCell_consCell_self {a : Nat} {b : Byte} {rest : Memory}
    (h : readCell font a rest = background font a) : readCell font a (consCell font a b rest) = b := by
  unfold consCell
  split
  · next e => rw [h, e]
  · simp [readCell]

/-- A write leaves every other address alone, in any memory. -/
theorem readCell_writeCell_of_ne {a x : Nat} (h : x ≠ a) (b : Byte) :
    ∀ m : Memory, readCell font x (writeCell font a b m) = readCell font x m
  | [] => readCell_consCell_of_ne h b []
  | (a', b') :: rest => by
    simp only [writeCell]
    split
    · exact readCell_consCell_of_ne h b _
    · split
      · next e => subst e; rw [readCell_consCell_of_ne h]; simp [readCell, Ne.symm h]
      · simp [readCell, readCell_writeCell_of_ne h b rest]

/-- A read after a write to the same address gives the byte written. -/
theorem readCell_writeCell_self {a low : Nat} (b : Byte) :
    ∀ {m : Memory}, canonicalFrom font low m = true → readCell font a (writeCell font a b m) = b
  | [], _ => readCell_consCell_self rfl
  | (a', b') :: rest, hm => by
    have hm' := canonicalFrom_cons.mp hm
    simp only [writeCell]
    split
    · next lt => exact readCell_consCell_self (readCell_below lt (canonicalFrom_cons.mpr ⟨le_refl _, hm'.2⟩))
    · split
      · next e => subst e; exact readCell_consCell_self (readCell_below (Nat.lt_succ_self a) hm'.2.2.2)
      · next ne => simp [readCell, Ne.symm ne, readCell_writeCell_self b hm'.2.2.2]

theorem consCell_canonical {a low : Nat} {b : Byte} {rest : Memory} (h : low ≤ a) (ha : a < memSize)
    (hr : canonicalFrom font (a + 1) rest = true) : canonicalFrom font low (consCell font a b rest) = true := by
  unfold consCell
  split
  · exact canonicalFrom_mono (by omega) hr
  · next ne => exact canonicalFrom_cons.mpr ⟨h, ha, ne, hr⟩

/-- A write to an address that exists keeps the canonical form. -/
theorem writeCell_canonical {a low : Nat} (b : Byte) (h : low ≤ a) (ha : a < memSize) :
    ∀ {m : Memory}, canonicalFrom font low m = true → canonicalFrom font low (writeCell font a b m) = true
  | [], _ => consCell_canonical h ha rfl
  | (a', b') :: rest, hm => by
    have hm' := canonicalFrom_cons.mp hm
    simp only [writeCell]
    split
    · next lt => exact consCell_canonical h ha (canonicalFrom_cons.mpr ⟨by omega, hm'.2⟩)
    · split
      · next e => subst e; exact consCell_canonical h ha hm'.2.2.2
      · exact canonicalFrom_cons.mpr
          ⟨hm'.1, hm'.2.1, hm'.2.2.1, writeCell_canonical b (by omega) ha hm'.2.2.2⟩

/-- Writes to addresses that exist keep the canonical form. -/
theorem writeCells_wf :
    ∀ (cells : List Host.Cell) {m : Memory}, (∀ c ∈ cells, c.1 < memSize) → Memory.wf font m = true →
      Memory.wf font (writeCells font cells m) = true
  | [], _, _, hm => hm
  | (a, b) :: cells, _, hc, hm =>
    writeCells_wf cells (fun c h => hc c (List.mem_cons_of_mem _ h))
      (writeCell_canonical b (Nat.zero_le a) (hc (a, b) List.mem_cons_self) hm)

/-- Writes leave alone every address they do not name. -/
theorem readCell_writeCells_of_not_mem {x : Nat} :
    ∀ (cells : List Host.Cell) (m : Memory), (∀ c ∈ cells, c.1 ≠ x) →
      readCell font x (writeCells font cells m) = readCell font x m
  | [], _, _ => rfl
  | (a, b) :: cells, m, h => by
    have ha : x ≠ a := fun e => h (a, b) List.mem_cons_self e.symm
    rw [writeCells, readCell_writeCells_of_not_mem cells _ fun c hc => h c (List.mem_cons_of_mem _ hc)]
    exact readCell_writeCell_of_ne ha b m

/-- After writes in order, an address reads as the last byte written to it. -/
theorem readCell_writeCells_append {x : Nat} {b : Byte} (before after : List Host.Cell) {m : Memory}
    (hb : ∀ c ∈ before, c.1 < memSize) (hx : ∀ c ∈ after, c.1 ≠ x) (hm : Memory.wf font m = true) :
    readCell font x (writeCells font (before ++ (x, b) :: after) m) = b := by
  induction before generalizing m with
  | nil =>
    simp only [List.nil_append, writeCells]
    rw [readCell_writeCells_of_not_mem after _ hx]
    exact readCell_writeCell_self b hm
  | cons c cs ih =>
    obtain ⟨a, v⟩ := c
    exact ih (fun c h => hb c (List.mem_cons_of_mem _ h))
      (writeCell_canonical v (Nat.zero_le a) (hb (a, v) List.mem_cons_self) hm)

/-- The stores of consecutive bytes: the k-th goes to `a + k`. -/
theorem mem_cellsFrom {bytes : List Byte} {a : Nat} {c : Host.Cell} :
    c ∈ cellsFrom a bytes ↔ ∃ k, ∃ h : k < bytes.length, c = (a + k, bytes[k]) := by
  induction bytes generalizing a with
  | nil => simp [cellsFrom]
  | cons b bs ih =>
    simp only [cellsFrom, List.mem_cons, ih, List.length_cons]
    constructor
    · rintro (rfl | ⟨k, hk, rfl⟩)
      · exact ⟨0, by omega, rfl⟩
      · exact ⟨k + 1, by omega, by simp; omega⟩
    · rintro ⟨k, hk, rfl⟩
      cases k with
      | zero => exact .inl rfl
      | succ k => exact .inr ⟨k, by omega, by simp; omega⟩

/-- Consecutive bytes written in memory are read back, each at its address. -/
theorem readCell_writeCells_cellsFrom {bytes : List Byte} {a k : Nat} {m : Memory} (hk : k < bytes.length)
    (ha : a + bytes.length ≤ memSize) (hm : Memory.wf font m = true) :
    readCell font (a + k) (writeCells font (cellsFrom a bytes) m) = bytes[k] := by
  induction bytes generalizing a k m with
  | nil => simp at hk
  | cons b bs ih =>
    simp only [List.length_cons] at ha hk
    simp only [cellsFrom, writeCells]
    have hw : Memory.wf font (writeCell font a b m) = true := writeCell_canonical b (Nat.zero_le a) (by omega) hm
    cases k with
    | zero =>
      rw [readCell_writeCells_of_not_mem]
      · exact readCell_writeCell_self b hm
      · intro c hc
        obtain ⟨j, _, rfl⟩ := mem_cellsFrom.mp hc
        simp only; omega
    | succ k =>
      have := ih (a := a + 1) (k := k) (by omega) (by omega) hw
      rw [show a + (k + 1) = a + 1 + k by omega]
      simpa using this

/-- Canonical memories that read the same at every address are the same list. -/
theorem canonical_ext {low : Nat} :
    ∀ {m n : Memory}, canonicalFrom font low m = true → canonicalFrom font low n = true →
      (∀ a, readCell font a m = readCell font a n) → m = n
  | [], [], _, _, _ => rfl
  | [], (a, b) :: n, _, hn, h => by
    have hn' := canonicalFrom_cons.mp hn
    exact absurd ((h a).symm.trans rfl) (by simpa [readCell] using hn'.2.2.1)
  | (a, b) :: m, [], hm, _, h => by
    have hm' := canonicalFrom_cons.mp hm
    exact absurd (h a) (by simpa [readCell] using hm'.2.2.1)
  | (a, b) :: m, (a', b') :: n, hm, hn, h => by
    have hm' := canonicalFrom_cons.mp hm
    have hn' := canonicalFrom_cons.mp hn
    have haa : a = a' := by
      rcases Nat.lt_trichotomy a a' with lt | e | gt
      · have := h a
        rw [readCell_below lt (canonicalFrom_cons.mpr ⟨le_refl _, hn'.2⟩)] at this
        exact absurd this (by simpa [readCell] using hm'.2.2.1)
      · exact e
      · have := h a'
        rw [readCell_below gt (canonicalFrom_cons.mpr ⟨le_refl _, hm'.2⟩)] at this
        exact absurd this.symm (by simpa [readCell] using hn'.2.2.1)
    subst haa
    have hbb : b = b' := by simpa [readCell] using h a
    subst hbb
    have : m = n := by
      refine canonical_ext hm'.2.2.2 hn'.2.2.2 fun x => ?_
      by_cases hx : a = x
      · subst hx
        rw [readCell_below (Nat.lt_succ_self a) hm'.2.2.2, readCell_below (Nat.lt_succ_self a) hn'.2.2.2]
      · simpa [readCell, hx] using h x
    rw [this]

/-- Memory after construction is in canonical form. -/
theorem reset_mem_wf : Memory.wf State.reset.cfg.font State.reset.mem = true := rfl

end Sys2Proof.Machine
end

