-- ==== Sys2Proof/Laws/Ops.lean ====
section
/-!
SUPPORT. One lemma per shared operation that says what it can do: address checks, loads, stores, the fetch, the end of
an instruction, the flag writes, the key index, the register block.
-/

namespace Sys2Proof.Machine

/-! ### Address checks (R53) -/

@[simp] theorem effectiveAddr_of_lt {p : AddrPolicy} {k : AccessKind} {a : Nat} (h : a < memSize) :
    effectiveAddr p k a = .ok a := by simp [effectiveAddr, h]

theorem effectiveAddr_fault {k : AccessKind} {a : Nat} (h : memSize ≤ a) :
    effectiveAddr .fault k a = .error { cause := rangeCause k, info := a } := by
  simp [effectiveAddr, Nat.not_lt.mpr h]

/-- An effective address exists. -/
theorem effectiveAddr_lt {p : AddrPolicy} {k : AccessKind} {a e : Nat} (h : effectiveAddr p k a = .ok e) :
    e < memSize := by
  unfold effectiveAddr at h
  split at h
  · next lt => cases h; exact lt
  · cases p with
    | fault => cases h
    | wrap12 => cases h; exact Nat.mod_lt _ (by decide)
    | clamp => cases h; decide

/-- The address check raises only under P_ADDR_POLICY = FAULT, and reports the address. -/
theorem effectiveAddr_error {p : AddrPolicy} {k : AccessKind} {a : Nat} {r : Raised}
    (h : effectiveAddr p k a = .error r) :
    p = .fault ∧ memSize ≤ a ∧ r = { cause := rangeCause k, info := a } := by
  unfold effectiveAddr at h
  split at h
  · cases h
  · next nlt =>
    cases p with
    | fault => cases h; exact ⟨rfl, Nat.not_lt.mp nlt, rfl⟩
    | wrap12 => cases h
    | clamp => cases h

/-! ### Loads (R54, R59, R61) -/

/-- Loads inside memory answer the bytes there, in order. -/
theorem loadBytes_of_le (s : State) :
    ∀ {a n : Nat}, a + n ≤ memSize → loadBytes s a n = .ok ((List.range n).map fun k => s.peek (a + k))
  | _, 0, _ => rfl
  | a, n + 1, h => by
    simp only [loadBytes, memRead, effectiveAddr_of_lt (show a < memSize by omega)]
    rw [loadBytes_of_le s (by omega)]
    simp [List.range_succ_eq_map, Nat.add_assoc, Nat.add_comm 1]

theorem loadBytes_length (s : State) :
    ∀ {a n : Nat} {bs : List Byte}, loadBytes s a n = .ok bs → bs.length = n
  | _, 0, _, h => by cases h; rfl
  | a, n + 1, bs, h => by
    simp only [loadBytes] at h
    split at h
    · cases h
    · split at h
      · cases h
      · next e => cases h; simp [loadBytes_length s e]

/-- A load raises MEM_RANGE for the first address outside memory, under P_ADDR_POLICY = FAULT only. -/
theorem loadBytes_error (s : State) :
    ∀ {a n : Nat} {r : Raised}, loadBytes s a n = .error r →
      s.cfg.addrPolicy = .fault ∧ memSize < a + n ∧ r = { cause := .memRange, info := max a memSize }
  | _, 0, _, h => by cases h
  | a, n + 1, r, h => by
    simp only [loadBytes, memRead] at h
    split at h
    · next e =>
      split at e
      · next e' =>
        cases e; cases h
        obtain ⟨hp, ha, rfl⟩ := effectiveAddr_error e'
        exact ⟨hp, by omega, by simp [rangeCause, Nat.max_eq_left ha]⟩
      · cases e
    · next e =>
      split at h
      · next e' =>
        cases h
        obtain ⟨hp, hlt, rfl⟩ := loadBytes_error s e'
        refine ⟨hp, by omega, ?_⟩
        split at e
        · cases e
        · next e'' =>
          cases e
          have : a < memSize := by
            by_contra hge
            rw [hp, effectiveAddr_fault (Nat.not_lt.mp hge)] at e''
            cases e''
          simp only [Raised.mk.injEq, true_and]; omega
      · cases h

/-- The first address of a block that is outside memory is the one a load reports. -/
theorem loadBytes_fault (s : State) (hp : s.cfg.addrPolicy = .fault) {a n : Nat} (h : memSize < a + n) (hn : 0 < n) :
    loadBytes s a n = .error { cause := .memRange, info := max a memSize } := by
  cases e : loadBytes s a n with
  | error r => rw [(loadBytes_error s e).2.2]
  | ok bs =>
    exfalso
    induction n generalizing a bs with
    | zero => omega
    | succ n ih =>
      simp only [loadBytes, memRead, hp] at e
      by_cases ha : a < memSize
      · rw [effectiveAddr_of_lt ha] at e
        simp only at e
        split at e
        · cases e
        · next e' => exact ih (a := a + 1) (by omega) (by omega) _ e'
      · rw [effectiveAddr_fault (Nat.not_lt.mp ha)] at e; cases e

/-- A load depends on the parameters and memory only. -/
theorem loadBytes_congr {s t : State} (hc : t.cfg = s.cfg) (hm : ∀ a, t.peek a = s.peek a) :
    ∀ a n, loadBytes t a n = loadBytes s a n
  | _, 0 => rfl
  | a, n + 1 => by simp [loadBytes, memRead, hc, hm, loadBytes_congr hc hm]

/-! ### Stores (R55, R59, R61) -/

theorem storeTarget_of_range {cfg : Config} {a : Nat} (h1 : fontSize ≤ a) (h2 : a < memSize) :
    storeTarget cfg a = .ok (some a) := by
  simp [storeTarget, h2, Nat.not_lt.mpr h1]

theorem storeTarget_some {cfg : Config} {a e : Nat} (h : storeTarget cfg a = .ok (some e)) :
    e < memSize ∧ (e < fontSize → cfg.fontWrite = .write) := by
  unfold storeTarget at h
  split at h
  · cases h
  · next h' =>
    split at h
    · split at h
      · cases h
      · cases h
      · next hw => cases h; exact ⟨effectiveAddr_lt h', fun _ => hw⟩
    · next nlt => cases h; exact ⟨effectiveAddr_lt h', fun lt => absurd lt nlt⟩

/-- A store is checked for its range before the font region (R224), each under its own parameter. -/
theorem storeTarget_error {cfg : Config} {a : Nat} {r : Raised} (h : storeTarget cfg a = .error r) :
    (cfg.addrPolicy = .fault ∧ memSize ≤ a ∧ r = { cause := .memRange, info := a }) ∨
      (cfg.fontWrite = .fault ∧ ∃ e, e < fontSize ∧ effectiveAddr cfg.addrPolicy .data a = .ok e ∧
        r = { cause := .fontWrite, info := e }) := by
  unfold storeTarget at h
  split at h
  · next e => cases h; exact .inl (effectiveAddr_error e)
  · next e he =>
    split at h
    · next lt =>
      split at h
      · next hw => cases h; exact .inr ⟨hw, e, lt, he, rfl⟩
      · cases h
      · cases h
    · cases h

/-- Stores between the font and the end of memory write their bytes in place. -/
theorem storeCells_of_range {cfg : Config} :
    ∀ {bytes : List Byte} {a : Nat}, fontSize ≤ a → a + bytes.length ≤ memSize →
      storeCells cfg a bytes = .ok (cellsFrom a bytes)
  | [], _, _, _ => rfl
  | b :: bs, a, h1, h2 => by
    simp only [List.length_cons] at h2
    simp only [storeCells, storeTarget_of_range h1 (show a < memSize by omega)]
    rw [storeCells_of_range (by omega) (by omega)]
    rfl

/-- Every cell a store writes exists, and lies in the font region only under P_FONT_WRITE = WRITE. -/
theorem storeCells_mem {cfg : Config} :
    ∀ {bytes : List Byte} {a : Nat} {cells : List Host.Cell}, storeCells cfg a bytes = .ok cells →
      ∀ c ∈ cells, c.1 < memSize ∧ (c.1 < fontSize → cfg.fontWrite = .write)
  | [], _, _, h => by cases h; simp
  | b :: bs, a, cells, h => by
    simp only [storeCells] at h
    split at h
    · cases h
    · next e he =>
      split at h
      · cases h
      · next cs hcs =>
        cases e with
        | none => cases h; exact storeCells_mem hcs
        | some e =>
          cases h
          intro c hc
          rcases List.mem_cons.mp hc with rfl | hc
          · exact storeTarget_some he
          · exact storeCells_mem hcs c hc

/-- What a store can raise: MEM_RANGE or FONT_WRITE, each under its own parameter, with an address that fits. -/
theorem storeCells_error {cfg : Config} :
    ∀ {bytes : List Byte} {a : Nat} {r : Raised}, storeCells cfg a bytes = .error r →
      (cfg.addrPolicy = .fault ∧ r.cause = .memRange ∧ memSize ≤ r.info ∧ r.info ≤ max a memSize) ∨
        (cfg.fontWrite = .fault ∧ r.cause = .fontWrite ∧ r.info < fontSize)
  | [], _, _, h => by cases h
  | b :: bs, a, r, h => by
    simp only [storeCells] at h
    split at h
    · next e =>
      cases h
      rcases storeTarget_error e with ⟨hp, ha, rfl⟩ | ⟨hf, e, lt, _, rfl⟩
      · exact .inl ⟨hp, rfl, ha, by simp⟩
      · exact .inr ⟨hf, rfl, lt⟩
    · next e he =>
      split at h
      · next he' =>
        cases h
        rcases storeCells_error he' with ⟨hp, hc, h1, h2⟩ | hf
        · have : a < memSize := by
            by_contra hge
            simp [storeTarget, hp, effectiveAddr_fault (Nat.not_lt.mp hge)] at he
          exact .inl ⟨hp, hc, h1, by omega⟩
        · exact .inr hf
      · cases e <;> cases h

/-- A store that completes changes memory and nothing else. -/
theorem storeBytes_ok {s t : State} {a : Nat} {bytes : List Byte} (h : storeBytes s a bytes = .ok t) :
    ∃ cells, storeCells s.cfg a bytes = .ok cells ∧ t = s.setMem (writeCells s.cfg.font cells s.mem) := by
  unfold storeBytes at h
  split at h
  · cases h
  · next cells hc => cases h; exact ⟨cells, hc, rfl⟩

theorem storeBytes_error {s : State} {a : Nat} {bytes : List Byte} {r : Raised} (h : storeBytes s a bytes = .error r) :
    storeCells s.cfg a bytes = .error r := by
  unfold storeBytes at h
  split at h
  · next e => cases h; exact e
  · cases h

/-- A store that completes keeps the canonical form of memory. -/
theorem storeBytes_wf {s t : State} {a : Nat} {bytes : List Byte} (h : storeBytes s a bytes = .ok t)
    (hm : Memory.wf s.cfg.font s.mem = true) : Memory.wf t.cfg.font t.mem = true := by
  obtain ⟨cells, hc, rfl⟩ := storeBytes_ok h
  exact writeCells_wf cells (fun c h => (storeCells_mem hc c h).1) hm

/-! ### The fetch (R62) -/

/-- A fetch inside memory reads the two bytes at pc, the first one as bits 15:8. -/
theorem fetch_of_lt {s : State} (h : s.pc.toNat + 1 < memSize) :
    fetch s = .ok (wordOfBytes (s.peek s.pc.toNat) (s.peek (s.pc.toNat + 1))) := by
  simp [fetch, h, show s.pc.toNat < memSize by omega]

/-- A fetch raises FETCH_RANGE only, under P_ADDR_POLICY = FAULT, and reports pc or, at 0xFFF, pc + 1. -/
theorem fetch_error {s : State} {r : Raised} (h : fetch s = .error r) :
    s.cfg.addrPolicy = .fault ∧ r.cause = .fetchRange ∧
      (memSize ≤ s.pc.toNat ∧ r.info = s.pc.toNat ∨ s.pc.toNat = 0xFFF ∧ r.info = memSize) := by
  unfold fetch at h
  split at h
  · next e => cases h; obtain ⟨hp, ha, rfl⟩ := effectiveAddr_error e; exact ⟨hp, rfl, .inl ⟨ha, rfl⟩⟩
  · next e0 he0 =>
    split at h
    · next e =>
      cases h
      obtain ⟨hp, ha, rfl⟩ := effectiveAddr_error e
      rw [hp] at he0
      have : s.pc.toNat < memSize := by
        by_contra hge
        rw [effectiveAddr_fault (Nat.not_lt.mp hge)] at he0
        cases he0
      simp only [memSize] at *
      exact ⟨hp, rfl, .inr ⟨by omega, by omega⟩⟩
    · cases h

/-! ### The end of an instruction (R90, R222) -/

theorem conclude_cases {w : Word} {s t : State} {r : Except Raised State} (h : conclude w s r = .next t) :
    r = .ok t ∨ ∃ e, r = .error e ∧ t = takeFault e s.pc w s := by
  cases r with
  | ok u => cases h; exact .inl rfl
  | error e => cases h; exact .inr ⟨e, rfl, rfl⟩

@[simp] theorem conclude_ok (w : Word) (s t : State) : conclude w s (.ok t) = .next t := rfl

@[simp] theorem conclude_error (w : Word) (s : State) (e : Raised) :
    conclude w s (.error e) = .next (takeFault e s.pc w s) := rfl

/-- A skip moves pc only (R100). -/
theorem skipIf_eq (s : State) (c : Bool) : s.skipIf c = s.setPc (if c then s.pc + 2 else s.pc) := by
  cases c <;> rfl

/-! ### The flag writes (R121) -/

theorem writeFlagged_sequential {s : State} (h : s.cfg.aluOrder = .sequential) (x : Reg) (f g : State → Byte) :
    writeFlagged s x f g = (s.setV VF (f s)).setV x (g (s.setV VF (f s))) := by simp [writeFlagged, h]

theorem writeFlagged_flagLast {s : State} (h : s.cfg.aluOrder = .flagLast) (x : Reg) (f g : State → Byte) :
    writeFlagged s x f g = (s.setV x (g s)).setV VF (f s) := by simp [writeFlagged, h]

/-- Whatever the order, a flag-writing ALU instruction writes V[x] and VF and nothing else. -/
theorem writeFlagged_writes (s : State) (x : Reg) (f g : State → Byte) :
    ∃ (a b : Reg) (v w : Byte), (a = x ∧ b = VF ∨ a = VF ∧ b = x) ∧ writeFlagged s x f g = (s.setV a v).setV b w := by
  cases h : s.cfg.aluOrder with
  | sequential => exact ⟨VF, x, _, _, .inr ⟨rfl, rfl⟩, writeFlagged_sequential h x f g⟩
  | flagLast => exact ⟨x, VF, _, _, .inl ⟨rfl, rfl⟩, writeFlagged_flagLast h x f g⟩

@[simp] theorem boolByte_toNat (c : Bool) : (boolByte c).toNat = if c then 1 else 0 := by cases c <;> rfl

/-! ### The key index (R190) -/

theorem held_error {s : State} {v : Byte} {r : Raised} (h : held s v = .error r) :
    s.cfg.keyRange = .fault ∧ 0xF < v.toNat ∧ r = { cause := .keyRange, info := v.toNat } := by
  unfold held at h
  split at h
  · cases h
  · next hv =>
    split at h
    · next hk => cases h; exact ⟨hk, Nat.not_le.mp hv, rfl⟩
    · cases h
    · cases h

/-! ### The register block (R154, R155) -/

/-- Consecutive register writes: register `k + j` receives the j-th byte, the others keep theirs. -/
theorem setBlock_get (bytes : List Byte) :
    ∀ (k : Nat) (v : Vector Byte 16) (r : Reg),
      (setBlock k bytes v).get r = if h : k ≤ r.val ∧ r.val - k < bytes.length then bytes[r.val - k]'h.2 else v.get r := by
  induction bytes with
  | nil => intro k v r; simp [setBlock]
  | cons b bs ih =>
    intro k v r
    simp only [setBlock, ih, List.length_cons]
    by_cases h1 : k + 1 ≤ r.val
    · have e : r.val - k = r.val - (k + 1) + 1 := by omega
      by_cases h2 : r.val - (k + 1) < bs.length
      · rw [dif_pos ⟨h1, h2⟩, dif_pos ⟨by omega, by omega⟩]
        simp [e]
      · rw [dif_neg (by omega), dif_neg (by omega)]
        simp [Vector.get_eq_getElem, show k ≠ r.val by omega]
    · rw [dif_neg (by omega)]
      by_cases h2 : k = r.val
      · rw [dif_pos ⟨by omega, by omega⟩]
        subst h2
        simp [Vector.get_eq_getElem]
      · rw [dif_neg (by omega)]
        simp [Vector.get_eq_getElem, h2]

theorem blockRegs_length (s : State) (x : Reg) : (blockRegs s x).length = x.val + 1 := by
  simp [blockRegs]

theorem blockRegs_getElem (s : State) (x : Reg) (k : Nat) (h : k < (blockRegs s x).length) :
    (blockRegs s x)[k] = s.getV ⟨k, by rw [blockRegs_length] at h; omega⟩ := by
  simp [blockRegs, State.getV, Vector.get_eq_getElem]

end Sys2Proof.Machine
end

