-- ==== Sys2Proof/Laws/Access.lean ====
section
/-!
SUPPORT. Blocks of loads and stores in the words of Safety.lean, under every parameter: where each access lands, what a
whole block reads or writes, and which fault it raises.
-/

namespace Sys2Proof.Machine

/-- An access that does not raise goes to its landing address (R53). -/
theorem effectiveAddr_landing {cfg : Config} {kind : AccessKind} {a : Nat} (h : ¬RangeFails cfg a) :
    effectiveAddr cfg.addrPolicy kind a = .ok (landing cfg a) := by
  by_cases ha : a < 0x1000
  · simp [effectiveAddr, landing, memSize, ha]
  · cases hp : cfg.addrPolicy with
    | fault => exact absurd ⟨hp, Nat.not_lt.mp ha⟩ h
    | wrap12 => simp [effectiveAddr, landing, memSize, ha, hp]
    | clamp => simp [effectiveAddr, landing, memSize, ha, hp]

theorem landing_lt {cfg : Config} {a : Nat} (h : ¬RangeFails cfg a) : landing cfg a < memSize :=
  effectiveAddr_lt (k := .data) (effectiveAddr_landing h)

/-- A store that raises neither fault goes to its landing address, or is dropped (R55). -/
theorem storeTarget_landing {cfg : Config} {a : Nat} (hr : ¬RangeFails cfg a) (hf : ¬FontFails cfg a) :
    storeTarget cfg a = .ok (if Lands cfg a then some (landing cfg a) else none) := by
  simp only [storeTarget, effectiveAddr_landing hr, fontSize]
  by_cases hl : landing cfg a < 0x50
  · have hc : cfg.fontWrite = .fault ∨ cfg.fontWrite = .ignore ∨ cfg.fontWrite = .write := by
      cases cfg.fontWrite <;> simp
    rcases hc with hw | hw | hw
    · exact absurd ⟨hw, by omega⟩ hf
    · simp [Lands, hw, hl]; omega
    · simp [Lands, hw, hl]
  · have : 0x04F < landing cfg a := by omega
    simp [Lands, hl, this]

/-! ### Loads -/

/-- A block none of whose bytes raises is read byte by byte at the landing addresses. -/
theorem loadBytes_ok {s : State} :
    ∀ {n a : Nat}, (∀ k, k < n → ¬RangeFails s.cfg (a + k)) →
      loadBytes s a n = .ok ((List.range n).map fun k => s.peek (landing s.cfg (a + k)))
  | 0, _, _ => rfl
  | n + 1, a, h => by
    have hk : ∀ k, k < n → ¬RangeFails s.cfg (a + 1 + k) := fun k hk => by
      rw [Nat.add_assoc, Nat.add_comm 1]; exact h (k + 1) (by omega)
    have h0 := effectiveAddr_landing (kind := .data) (h 0 (by omega))
    simp only [Nat.add_zero] at h0
    simp only [loadBytes, memRead, h0, loadBytes_ok hk]
    simp [List.range_succ_eq_map, Nat.add_assoc, Nat.add_comm 1]

/-- A block raises for the first of its bytes that raises. -/
theorem loadBytes_first_fault {s : State} :
    ∀ {n a k : Nat}, FirstReadFault s.cfg a n k → loadBytes s a n = .error { cause := .memRange, info := a + k }
  | 0, _, _, h => by simp [FirstReadFault] at h
  | n + 1, a, 0, ⟨_, h, _⟩ => by
    simp only [Nat.add_zero] at h
    simp [loadBytes, memRead, h.1, effectiveAddr_fault (show memSize ≤ a from h.2), rangeCause]
  | n + 1, a, k + 1, ⟨h1, h2, h3⟩ => by
    have h0 := effectiveAddr_landing (kind := .data) (h3 0 (by omega))
    have e : ∀ j, a + 1 + j = a + (j + 1) := fun j => by omega
    have ih := loadBytes_first_fault (s := s) (n := n) (a := a + 1) (k := k)
      ⟨by omega, e k ▸ h2, fun j hj => e j ▸ h3 (j + 1) (by omega)⟩
    simp only [Nat.add_zero] at h0
    simp only [loadBytes, memRead, h0, ih, e]

/-! ### Stores -/

/-- The cells a block of stores writes, where none of its bytes raises. -/
def landedCells (cfg : Config) (a : Nat) : List Byte → List Host.Cell
  | [] => []
  | b :: bs => (if Lands cfg a then [(landing cfg a, b)] else []) ++ landedCells cfg (a + 1) bs

theorem storeCells_ok {cfg : Config} :
    ∀ {bytes : List Byte} {a : Nat},
      (∀ k, k < bytes.length → ¬RangeFails cfg (a + k) ∧ ¬FontFails cfg (a + k)) →
        storeCells cfg a bytes = .ok (landedCells cfg a bytes)
  | [], _, _ => rfl
  | b :: bs, a, h => by
    have e : ∀ j, a + 1 + j = a + (j + 1) := fun j => by omega
    have ih := storeCells_ok (bytes := bs) (a := a + 1) (cfg := cfg)
      fun k hk => e k ▸ h (k + 1) (by simpa using hk)
    have h0 := h 0 (by simp)
    have ht := storeTarget_landing h0.1 h0.2
    simp only [Nat.add_zero] at ht
    simp only [storeCells, ht, ih, landedCells]
    by_cases hl : Lands cfg a <;> simp only [hl, if_true, if_false] <;> rfl

theorem mem_landedCells {cfg : Config} :
    ∀ {bytes : List Byte} {a : Nat} {c : Host.Cell}, c ∈ landedCells cfg a bytes →
      ∃ k, ∃ h : k < bytes.length, Lands cfg (a + k) ∧ c = (landing cfg (a + k), bytes[k])
  | [], _, _, h => by cases h
  | b :: bs, a, c, h => by
    simp only [landedCells, List.mem_append] at h
    rcases h with h | h
    · split at h
      · next hl => exact ⟨0, by simp, hl, by simpa using h⟩
      · cases h
    · obtain ⟨k, hk, hl, e⟩ := mem_landedCells h
      have e' : a + (k + 1) = a + 1 + k := by omega
      exact ⟨k + 1, by simpa using hk, by rwa [e'], by rw [e]; simp [e']⟩

theorem landedCells_split {cfg : Config} :
    ∀ {bytes : List Byte} {a k : Nat} (h : k < bytes.length), Lands cfg (a + k) →
      landedCells cfg a bytes =
        landedCells cfg a (bytes.take k) ++
          (landing cfg (a + k), bytes[k]) :: landedCells cfg (a + k + 1) (bytes.drop (k + 1))
  | b :: bs, a, 0, _, hl => by
    simp only [Nat.add_zero] at hl
    simp [landedCells, hl]
  | b :: bs, a, k + 1, h, hl => by
    have e : a + 1 + k = a + (k + 1) := by omega
    have := landedCells_split (bytes := bs) (a := a + 1) (k := k) (by simpa using h) (by rwa [e])
    simp only [landedCells, this, List.take_succ_cons, List.append_assoc, e]
    simp

/-- A block none of whose bytes raises is stored, and memory is all that changes (R55, R59). -/
theorem storeBytes_stored {s : State} (hm : Memory.wf s.cfg.font s.mem = true) {a : Nat} {bytes : List Byte}
    (h : ∀ k, k < bytes.length → ¬RangeFails s.cfg (a + k) ∧ ¬FontFails s.cfg (a + k)) :
    ∃ m, storeBytes s a bytes = .ok (s.setMem m) ∧ Stored s (s.setMem m) a bytes := by
  refine ⟨writeCells s.cfg.font (landedCells s.cfg a bytes) s.mem, by simp [storeBytes, storeCells_ok h], ?_, ?_⟩
  · intro k hk hl hlast
    simp only [State.peek, State.setMem_mem, State.setMem_cfg]
    rw [landedCells_split hk hl]
    apply readCell_writeCells_append _ _ _ _ hm
    · intro c hc
      obtain ⟨j, hj, _, rfl⟩ := mem_landedCells hc
      simp only [List.length_take] at hj
      exact landing_lt (h j (by omega)).1
    · intro c hc
      obtain ⟨j, hj, _, rfl⟩ := mem_landedCells hc
      simp only [List.length_drop] at hj
      simpa [show a + k + 1 + j = a + (k + 1 + j) by omega] using hlast (k + 1 + j) (by omega) (by omega)
  · intro e he
    apply readCell_writeCells_of_not_mem
    intro c hc
    obtain ⟨j, hj, hl, rfl⟩ := mem_landedCells hc
    exact he j hj hl

/-- A block raises for the first of its bytes that raises, its range before the font region (R55, R224). -/
theorem storeCells_first_fault {cfg : Config} :
    ∀ {bytes : List Byte} {a k : Nat}, FirstStoreFault cfg a bytes.length k →
      storeCells cfg a bytes =
        .error (if RangeFails cfg (a + k) then { cause := .memRange, info := a + k }
          else { cause := .fontWrite, info := landing cfg (a + k) })
  | [], _, _, h => by simp [FirstStoreFault] at h
  | b :: bs, a, 0, ⟨_, h, _⟩ => by
    simp only [Nat.add_zero] at h ⊢
    by_cases hr : RangeFails cfg a
    · have : storeTarget cfg a = .error { cause := .memRange, info := a } := by
        simp [storeTarget, hr.1, effectiveAddr_fault (show memSize ≤ a from hr.2), rangeCause]
      rw [storeCells, this, if_pos hr]
    · have hf : FontFails cfg a := h.resolve_left hr
      have : storeTarget cfg a = .error { cause := .fontWrite, info := landing cfg a } := by
        simp only [storeTarget, effectiveAddr_landing hr, hf.1]
        rw [if_pos (by have := hf.2; simp only [fontSize]; omega)]
      rw [storeCells, this, if_neg hr]
  | b :: bs, a, k + 1, ⟨h1, h2, h3⟩ => by
    have e : ∀ j, a + 1 + j = a + (j + 1) := fun j => by omega
    have h0 := h3 0 (by omega)
    have ht := storeTarget_landing h0.1 h0.2
    have ih := storeCells_first_fault (bytes := bs) (a := a + 1) (k := k) (cfg := cfg)
      ⟨by simpa using h1, e k ▸ h2, fun j hj => e j ▸ h3 (j + 1) (by omega)⟩
    simp only [Nat.add_zero] at ht
    simp only [storeCells, ht, ih, e]

/-! ### Which fault a block raises (R221) -/

/-- A block of loads from I that raises does so as the table says. -/
theorem loadBytes_raises {s : State} {n : Nat} {r : Raised} (h : loadBytes s s.index.toNat n = .error r) :
    LoadRaises s n r.cause r.info := by
  obtain ⟨hp, hlt, rfl⟩ := loadBytes_error s h
  have hn : 0 < n := by
    rcases Nat.eq_zero_or_pos n with rfl | hn
    · cases h
    · exact hn
  simp only [memSize] at *
  refine ⟨max s.index.toNat 0x1000 - s.index.toNat, ⟨by omega, ⟨hp, by omega⟩, fun j hj hr => ?_⟩, rfl, by simp⟩
  have := hr.2
  omega

/-- A block of stores from I that raises does so as the table says, its first failing byte deciding (R224). -/
theorem storeCells_raises {s : State} {bytes : List Byte} {r : Raised}
    (h : storeCells s.cfg s.index.toNat bytes = .error r) : StoreRaises s bytes.length r.cause r.info := by
  by_cases hex : ∃ k, k < bytes.length ∧
      (RangeFails s.cfg (s.index.toNat + k) ∨ FontFails s.cfg (s.index.toNat + k))
  · obtain ⟨hlt, hfail⟩ := Nat.find_spec hex
    have hf : FirstStoreFault s.cfg s.index.toNat bytes.length (Nat.find hex) :=
      ⟨hlt, hfail, fun j hj => not_or.mp fun hj' => Nat.find_min hex hj ⟨by omega, hj'⟩⟩
    obtain rfl := Except.error.inj (h.symm.trans (storeCells_first_fault hf))
    refine ⟨_, hf, ?_⟩
    by_cases hr : RangeFails s.cfg (s.index.toNat + Nat.find hex)
    · rw [if_pos hr]; exact .inl ⟨hr, rfl, rfl⟩
    · rw [if_neg hr]; exact .inr ⟨hr, rfl, rfl⟩
  · have ok := storeCells_ok (cfg := s.cfg) (bytes := bytes) (a := s.index.toNat)
      fun k hk => not_or.mp fun hk' => hex ⟨k, hk, hk'⟩
    cases h.symm.trans ok

/-- The block FX55 stores, register by register. -/
theorem blockRegs_eq (s : State) (x : Reg) :
    blockRegs s x = ((List.finRange 16).map s.getV).take (x.val + 1) := by
  unfold blockRegs
  congr 1
  apply List.ext_getElem
  · simp
  · intro i h1 h2; simp [State.getV, Vector.get_eq_getElem]

end Sys2Proof.Machine
end

