-- ==== Sys2Proof/Laws/Decode.lean ====
section
/-!
SUPPORT. The fields of the words the encoder builds (spec/30_encoding.md rule R81), and those words under the masks of
the opcode map (R89).
-/

namespace Sys2Proof

@[simp] theorem regBits_toFin (x : Reg) : (regBits x).toFin = x := rfl

@[simp] theorem regBits_of_toFin (b : Nibble) : regBits b.toFin = b := rfl

/-! ### The bits of a built word -/

theorem getLsbD_wordNNN (c : Nibble) (nnn : Imm12) (i : Nat) :
    (wordNNN c nnn).getLsbD i = if i < 12 then nnn.getLsbD i else c.getLsbD (i - 12) :=
  BitVec.getLsbD_append

theorem getLsbD_wordXNN (c : Nibble) (x : Reg) (nn : Byte) (i : Nat) :
    (wordXNN c x nn).getLsbD i =
      if i < 8 then nn.getLsbD i else if i - 8 < 4 then (regBits x).getLsbD (i - 8) else c.getLsbD (i - 8 - 4) := by
  refine (BitVec.getLsbD_append (x := c ++ regBits x) (y := nn)).trans ?_
  split
  · rfl
  · exact BitVec.getLsbD_append

theorem getLsbD_wordXYN (c : Nibble) (x y : Reg) (n : Nibble) (i : Nat) :
    (wordXYN c x y n).getLsbD i =
      if i < 4 then n.getLsbD i else if i - 4 < 4 then (regBits y).getLsbD (i - 4)
      else if i - 4 - 4 < 4 then (regBits x).getLsbD (i - 4 - 4) else c.getLsbD (i - 4 - 4 - 4) := by
  refine (BitVec.getLsbD_append (x := c ++ regBits x ++ regBits y) (y := n)).trans ?_
  split
  · rfl
  · refine (BitVec.getLsbD_append (x := c ++ regBits x) (y := regBits y)).trans ?_
    split
    · rfl
    · exact BitVec.getLsbD_append

/-! ### Fields -/

/-- A field that reads bits `k` on of a word is a vector if the bits agree. -/
theorem extractLsb'_eq {w : Word} {n k : Nat} {b : BitVec n} (h : ∀ i < n, w.getLsbD (k + i) = b.getLsbD i) :
    w.extractLsb' k n = b := by
  ext i hi
  simpa [hi] using h i hi

@[simp] theorem opClass_wordNNN (c : Nibble) (nnn : Imm12) : opClass (wordNNN c nnn) = c :=
  extractLsb'_eq fun i _ => by simp [getLsbD_wordNNN]

@[simp] theorem fieldNNN_wordNNN (c : Nibble) (nnn : Imm12) : fieldNNN (wordNNN c nnn) = nnn :=
  extractLsb'_eq fun i hi => by simp [getLsbD_wordNNN, hi]

@[simp] theorem opClass_wordXNN (c : Nibble) (x : Reg) (nn : Byte) : opClass (wordXNN c x nn) = c :=
  extractLsb'_eq fun i _ => by
    rw [getLsbD_wordXNN, if_neg (by omega), if_neg (by omega)]; congr 1; omega

@[simp] theorem fieldX_wordXNN (c : Nibble) (x : Reg) (nn : Byte) : fieldX (wordXNN c x nn) = x :=
  congrArg BitVec.toFin <| extractLsb'_eq (b := regBits x) fun i hi => by
    rw [getLsbD_wordXNN, if_neg (by omega), if_pos (by omega)]; congr 1; omega

@[simp] theorem fieldNN_wordXNN (c : Nibble) (x : Reg) (nn : Byte) : fieldNN (wordXNN c x nn) = nn :=
  extractLsb'_eq fun i hi => by simp [getLsbD_wordXNN, hi]

@[simp] theorem opClass_wordXYN (c : Nibble) (x y : Reg) (n : Nibble) : opClass (wordXYN c x y n) = c :=
  extractLsb'_eq fun i _ => by
    rw [getLsbD_wordXYN, if_neg (by omega), if_neg (by omega), if_neg (by omega)]; congr 1; omega

@[simp] theorem fieldX_wordXYN (c : Nibble) (x y : Reg) (n : Nibble) : fieldX (wordXYN c x y n) = x :=
  congrArg BitVec.toFin <| extractLsb'_eq (b := regBits x) fun i hi => by
    rw [getLsbD_wordXYN, if_neg (by omega), if_neg (by omega), if_pos (by omega)]; congr 1; omega

@[simp] theorem fieldY_wordXYN (c : Nibble) (x y : Reg) (n : Nibble) : fieldY (wordXYN c x y n) = y :=
  congrArg BitVec.toFin <| extractLsb'_eq (b := regBits y) fun i hi => by
    rw [getLsbD_wordXYN, if_neg (by omega), if_pos (by omega)]; congr 1; omega

@[simp] theorem fieldN_wordXYN (c : Nibble) (x y : Reg) (n : Nibble) : fieldN (wordXYN c x y n) = n :=
  extractLsb'_eq fun i hi => by simp [getLsbD_wordXYN, hi]

/-! ### A word rebuilt from its fields -/

theorem extractLsb'_getLsbD {w : Word} {k n i : Nat} :
    (w.extractLsb' k n).getLsbD i = (decide (i < n) && w.getLsbD (k + i)) :=
  BitVec.getLsbD_extractLsb' k n w i

/-- Two words with the same 16 bits are equal. -/
theorem word_ext {v w : Word} (h : ∀ i < 16, v.getLsbD i = w.getLsbD i) : v = w :=
  BitVec.eq_of_getLsbD_eq h

theorem wordNNN_fields (w : Word) : wordNNN (opClass w) (fieldNNN w) = w :=
  word_ext fun i hi => by
    rw [getLsbD_wordNNN, opClass, fieldNNN]
    simp only [extractLsb'_getLsbD]
    split
    · simp_all
    · rw [show 12 + (i - 12) = i by omega]; simp; omega

theorem wordXNN_fields (w : Word) : wordXNN (opClass w) (fieldX w) (fieldNN w) = w :=
  word_ext fun i hi => by
    rw [getLsbD_wordXNN, opClass, fieldX, fieldNN]
    simp only [regBits_of_toFin, extractLsb'_getLsbD]
    split
    · simp_all
    · split
      · rw [show 8 + (i - 8) = i by omega]; simp; omega
      · rw [show 12 + (i - 8 - 4) = i by omega]; simp; omega

theorem wordXYN_fields (w : Word) : wordXYN (opClass w) (fieldX w) (fieldY w) (fieldN w) = w :=
  word_ext fun i hi => by
    rw [getLsbD_wordXYN, opClass, fieldX, fieldY, fieldN]
    simp only [regBits_of_toFin, extractLsb'_getLsbD]
    split
    · simp_all
    · split
      · rw [show 4 + (i - 4) = i by omega]; simp; omega
      · split
        · rw [show 8 + (i - 4 - 4) = i by omega]; simp; omega
        · rw [show 12 + (i - 4 - 4 - 4) = i by omega]; simp; omega

/-- The two bytes of a word, put together again (R58). -/
@[simp] theorem wordOfBytes_bytes (w : Word) : wordOfBytes (w.extractLsb' 8 8) (w.extractLsb' 0 8) = w :=
  word_ext fun i hi => by
    refine (BitVec.getLsbD_append (x := w.extractLsb' 8 8) (y := w.extractLsb' 0 8)).trans ?_
    simp only [extractLsb'_getLsbD]
    split
    · simp_all
    · rw [show 8 + (i - 8) = i by omega]; simp; omega

/-! ### Masks (R89) -/

theorem wordNNN_mask (c : Nibble) (nnn : Imm12) : wordNNN c nnn &&& 0xF000#16 = wordNNN c 0 :=
  word_ext fun i hi => by
    rw [BitVec.getLsbD_and, show (0xF000#16) = wordNNN 0xF 0 from rfl]
    simp only [getLsbD_wordNNN]
    split
    · simp
    · rw [show (0xF : Nibble) = BitVec.allOnes 4 from rfl, BitVec.getLsbD_allOnes]; simp; omega

theorem wordXNN_mask_class (c : Nibble) (x : Reg) (nn : Byte) : wordXNN c x nn &&& 0xF000#16 = wordXNN c 0 0 :=
  word_ext fun i hi => by
    rw [BitVec.getLsbD_and, show (0xF000#16) = wordXNN 0xF 0 0 from rfl]
    simp only [getLsbD_wordXNN]
    split
    · simp
    · split
      · simp [show regBits 0 = 0#4 from rfl]
      · rw [show (0xF : Nibble) = BitVec.allOnes 4 from rfl, BitVec.getLsbD_allOnes]; simp; omega

theorem wordXNN_mask_low (c : Nibble) (x : Reg) (nn : Byte) : wordXNN c x nn &&& 0xF0FF#16 = wordXNN c 0 nn :=
  word_ext fun i hi => by
    rw [BitVec.getLsbD_and, show (0xF0FF#16) = wordXNN 0xF 0 0xFF from rfl]
    simp only [getLsbD_wordXNN]
    split
    · rw [show (0xFF : Byte) = BitVec.allOnes 8 from rfl, BitVec.getLsbD_allOnes]; simp; omega
    · split
      · simp [show regBits 0 = 0#4 from rfl]
      · rw [show (0xF : Nibble) = BitVec.allOnes 4 from rfl, BitVec.getLsbD_allOnes]; simp; omega

theorem wordXYN_mask_class (c : Nibble) (x y : Reg) (n : Nibble) : wordXYN c x y n &&& 0xF000#16 = wordXYN c 0 0 0 :=
  word_ext fun i hi => by
    rw [BitVec.getLsbD_and, show (0xF000#16) = wordXYN 0xF 0 0 0 from rfl]
    simp only [getLsbD_wordXYN]
    split
    · simp
    · split
      · simp [show regBits 0 = 0#4 from rfl]
      · split
        · simp [show regBits 0 = 0#4 from rfl]
        · rw [show (0xF : Nibble) = BitVec.allOnes 4 from rfl, BitVec.getLsbD_allOnes]; simp; omega

theorem wordXYN_mask_low (c : Nibble) (x y : Reg) (n : Nibble) : wordXYN c x y n &&& 0xF00F#16 = wordXYN c 0 0 n :=
  word_ext fun i hi => by
    rw [BitVec.getLsbD_and, show (0xF00F#16) = wordXYN 0xF 0 0 0xF from rfl]
    simp only [getLsbD_wordXYN]
    split
    · rw [show (0xF : Nibble) = BitVec.allOnes 4 from rfl, BitVec.getLsbD_allOnes]; simp; omega
    · split
      · simp [show regBits 0 = 0#4 from rfl]
      · split
        · simp [show regBits 0 = 0#4 from rfl]
        · rw [show (0xF : Nibble) = BitVec.allOnes 4 from rfl, BitVec.getLsbD_allOnes]; simp; omega

end Sys2Proof
end

