-- ==== Sys2Proof/Laws/Display.lean ====
section
/-!
SUPPORT. The renderer (spec/43_display.md rules R171 to R175): what one toggle does, which pixels a sprite covers, that
it covers none twice, and what a whole blit does to every pixel.
-/

namespace Sys2Proof.Machine

/-- A toggle flips one pixel and leaves every other alone. -/
theorem pixel_togglePixel (fb : Framebuffer) (row r : Fin 32) (col c : Fin 64) :
    pixel (togglePixel fb row col) r c = ((pixel fb r c) ^^ decide ((r, c) = (row, col))) := by
  simp only [pixel, togglePixel, Vector.get_eq_getElem, Vector.getElem_set]
  by_cases hr : row.val = r.val
  · have hr' : row = r := Fin.ext hr
    subst hr'
    simp only [if_true, Vector.getElem_set]
    by_cases hc : col.val = c.val
    · have hc' : col = c := Fin.ext hc
      subst hc'
      simp
    · have hc' : c ≠ col := fun e => hc (by rw [e])
      simp [hc, hc']
  · have hr' : r ≠ row := fun e => hr (by rw [e])
    simp [hr, hr']

/-- Plotting distinct pixels toggles exactly those, and collides exactly if one of them was lit before. -/
theorem foldl_plot {l : List (Fin 32 × Fin 64)} (hl : l.Nodup) (acc : Framebuffer × Bool) :
    (∀ r c, pixel (l.foldl plot acc).1 r c = ((pixel acc.1 r c) ^^ decide ((r, c) ∈ l))) ∧
      (l.foldl plot acc).2 = (acc.2 || l.any fun p => pixel acc.1 p.1 p.2) := by
  induction l generalizing acc with
  | nil => simp
  | cons p l ih =>
    obtain ⟨hp, hl⟩ := List.nodup_cons.mp hl
    obtain ⟨h1, h2⟩ := ih hl (plot acc p)
    rw [List.foldl_cons]
    refine ⟨fun r c => ?_, ?_⟩
    · rw [h1, plot, pixel_togglePixel]
      by_cases e : (r, c) = p
      · subst e; simp [hp]
      · have e' : (r, c) ≠ (p.1, p.2) := e
        simp [e]
    · rw [h2, plot, List.any_cons]
      have : (l.any fun q => pixel (togglePixel acc.1 p.1 p.2) q.1 q.2) = l.any fun q => pixel acc.1 q.1 q.2 := by
        rw [Bool.eq_iff_iff, List.any_eq_true, List.any_eq_true]
        have key : ∀ q ∈ l, pixel (togglePixel acc.1 p.1 p.2) q.1 q.2 = pixel acc.1 q.1 q.2 := by
          intro q hq
          rw [pixel_togglePixel]
          have e : (q.1, q.2) ≠ (p.1, p.2) := fun e => hp (by rwa [show p = q from Prod.ext (by simp_all) (by simp_all)])
          simp [e]
        exact ⟨fun ⟨q, hq, h⟩ => ⟨q, hq, key q hq ▸ h⟩, fun ⟨q, hq, h⟩ => ⟨q, hq, (key q hq).symm ▸ h⟩⟩
      rw [this, Bool.or_assoc]

theorem mem_rowColumns {x b : Byte} {col : Fin 64} :
    col ∈ rowColumns x b ↔ ∃ c < 8, b.getLsbD (7 - c) = true ∧ col = Fin.ofNat 64 (x.toNat + c) := by
  simp [rowColumns, and_assoc, eq_comm (a := col)]

/-- The pixels a sprite covers: one for each 1 bit of each byte, coordinates wrapping (R171). -/
theorem mem_spritePixels {x y : Byte} {row : Fin 32} {col : Fin 64} :
    ∀ {sprite : List Byte} {r : Nat}, (row, col) ∈ spritePixels x y r sprite ↔
      ∃ k, ∃ h : k < sprite.length, ∃ c < 8, sprite[k].getLsbD (7 - c) = true ∧
        row = Fin.ofNat 32 (y.toNat + (r + k)) ∧ col = Fin.ofNat 64 (x.toNat + c)
  | [], _ => by simp [spritePixels]
  | b :: bs, r => by
    simp only [spritePixels, List.mem_append, List.mem_map, mem_spritePixels, mem_rowColumns, Prod.mk.injEq,
      List.length_cons]
    constructor
    · rintro (⟨_, ⟨c, hc, hb, rfl⟩, rfl, rfl⟩ | ⟨k, hk, c, hc, hb, rfl, rfl⟩)
      · exact ⟨0, by omega, c, hc, by simpa using hb, by simp, rfl⟩
      · exact ⟨k + 1, by omega, c, hc, by simpa using hb, by rw [show r + (k + 1) = r + 1 + k by omega], rfl⟩
    · rintro ⟨k, hk, c, hc, hb, rfl, rfl⟩
      cases k with
      | zero => exact .inl ⟨_, ⟨c, hc, by simpa using hb, rfl⟩, by simp, rfl⟩
      | succ k =>
        exact .inr ⟨k, by omega, c, hc, by simpa using hb, by rw [show r + (k + 1) = r + 1 + k by omega], rfl⟩

theorem rowColumns_nodup (x b : Byte) : (rowColumns x b).Nodup := by
  refine List.Nodup.map_on (fun c hc d hd e => ?_) (List.nodup_range.filter _)
  have hc := List.mem_range.mp (List.mem_of_mem_filter hc)
  have hd := List.mem_range.mp (List.mem_of_mem_filter hd)
  have := congrArg Fin.val e
  simp only [Fin.ofNat] at this
  omega

theorem spritePixels_nodup (x y : Byte) :
    ∀ {sprite : List Byte} {r : Nat}, r + sprite.length ≤ 32 → (spritePixels x y r sprite).Nodup
  | [], _, _ => List.nodup_nil
  | b :: bs, r, h => by
    simp only [List.length_cons] at h
    refine List.nodup_append.mpr ⟨(rowColumns_nodup x b).map fun _ _ e => (Prod.mk.inj e).2,
      spritePixels_nodup x y (by omega), ?_⟩
    rintro ⟨row, col⟩ h1 ⟨row', col'⟩ h2 e
    obtain ⟨rfl, rfl⟩ := Prod.mk.inj e
    obtain ⟨_, _, e1⟩ := List.mem_map.mp h1
    obtain ⟨k, hk, _, _, _, e2, _⟩ := mem_spritePixels.mp h2
    have := (Prod.mk.inj e1).1.trans e2
    have := congrArg Fin.val this
    simp only [Fin.ofNat] at this
    omega

/-- A blit toggles exactly the pixels its sprite covers, and collides exactly if one of them was lit (R171, R174). -/
theorem blit_spec (fb : Framebuffer) (x y : Byte) {sprite : List Byte} (h : sprite.length ≤ 15) :
    (∀ r c, pixel (blit fb x y sprite).1 r c = ((pixel fb r c) ^^ decide ((r, c) ∈ spritePixels x y 0 sprite))) ∧
      (blit fb x y sprite).2 = (spritePixels x y 0 sprite).any fun p => pixel fb p.1 p.2 := by
  have := foldl_plot (spritePixels_nodup x y (sprite := sprite) (r := 0) (by omega)) (fb, false)
  simpa [blit] using this

/-- Framebuffers with the same pixels are the same. -/
theorem framebuffer_ext {f g : Framebuffer} (h : ∀ r c, pixel f r c = pixel g r c) : f = g := by
  ext r hr c hc
  have := h ⟨r, hr⟩ ⟨c, hc⟩
  simpa [pixel, Vector.get_eq_getElem] using this

@[simp] theorem pixel_blankFb (r : Fin 32) (c : Fin 64) : pixel blankFb r c = false := by
  simp [pixel, blankFb, Vector.get_eq_getElem]

end Sys2Proof.Machine
end

