-- ==== Sys2Proof/Laws/Frames.lean ====
section
/-!
SUPPORT. Frames: what each update and each shared operation keeps. A meaning's frame is the composition of the frames of
the operations it is built from (KeepsBut.trans), weakened to the list stated (KeepsBut.mono).
-/

namespace Sys2Proof.Machine

theorem Field.Same.refl (f : Field) (s : State) : f.Same s s := by
  cases f <;> first | rfl | exact fun _ => rfl | exact fun _ _ => rfl

theorem Field.Same.trans {f : Field} {s t u : State} (h1 : f.Same s t) (h2 : f.Same t u) : f.Same s u := by
  cases f
  case v => exact fun r => (h2 r).trans (h1 r)
  case stack => exact fun k => (h2 k).trans (h1 k)
  case key => exact fun k => (h2 k).trans (h1 k)
  case mem => exact fun a => (h2 a).trans (h1 a)
  case fb => exact fun r c => (h2 r c).trans (h1 r c)
  all_goals exact Eq.trans h2 h1

theorem KeepsBut.refl (fs : List Field) (s : State) : KeepsBut fs s s := fun f _ => Field.Same.refl f s

/-- A frame holds for every longer list. -/
theorem KeepsBut.mono {fs gs : List Field} {s t : State} (h : KeepsBut fs s t) (hs : fs ⊆ gs) : KeepsBut gs s t :=
  fun f hf => h f fun hm => hf (hs hm)

/-- Frames compose. -/
theorem KeepsBut.trans {fs gs hs : List Field} {s t u : State} (h1 : KeepsBut fs s t) (h2 : KeepsBut gs t u)
    (hf : fs ⊆ hs) (hg : gs ⊆ hs) : KeepsBut hs s u :=
  fun f h => (h1.mono hf f h).trans (h2.mono hg f h)

theorem KeepsRegsBut.mono {rs qs : List Reg} {s t : State} (h : KeepsRegsBut rs s t) (hs : rs ⊆ qs) :
    KeepsRegsBut qs s t := fun r hr => h r fun hm => hr (hs hm)

/-- A frame without V keeps every register. -/
theorem KeepsBut.regs {fs : List Field} {s t : State} (h : KeepsBut fs s t) (hv : Field.v ∉ fs) (rs : List Reg) :
    KeepsRegsBut rs s t := fun r _ => h .v hv r

/-! ### The frame of each update -/

theorem keeps_setV (s : State) (x : Reg) (b : Byte) : KeepsBut [.v] s (s.setV x b) := fun f hf => by
  cases f <;> first | rfl | exact fun _ => rfl | exact fun _ _ => rfl | exact absurd List.mem_cons_self hf

theorem keeps_setRegs (s : State) (v : Vector Byte 16) : KeepsBut [.v] s (s.setRegs v) := fun f hf => by
  cases f <;> first | exact absurd List.mem_cons_self hf | rfl | exact fun _ => rfl | exact fun _ _ => rfl

theorem keeps_setPc (s : State) (a : Word) : KeepsBut [.pc] s (s.setPc a) := fun f hf => by
  cases f <;> first | exact absurd List.mem_cons_self hf | rfl | exact fun _ => rfl | exact fun _ _ => rfl

theorem keeps_advance (s : State) : KeepsBut [.pc] s s.advance := keeps_setPc s _

/-- The frame of a meaning, from the frame of what it does after the fetch's pc advance. -/
theorem KeepsBut.of_advance {fs : List Field} {s t : State} (h : KeepsBut fs s.advance t) :
    KeepsBut (.pc :: fs) s t :=
  (keeps_advance s).trans h (by simp) (List.subset_cons_self _ _)

theorem keeps_skipIf (s : State) (c : Bool) : KeepsBut [.pc] s (s.skipIf c) := by
  rw [skipIf_eq]; exact keeps_setPc s _

theorem keeps_setIndex (s : State) (a : Word) : KeepsBut [.index] s (s.setIndex a) := fun f hf => by
  cases f <;> first | exact absurd List.mem_cons_self hf | rfl | exact fun _ => rfl | exact fun _ _ => rfl

theorem keeps_setDt (s : State) (b : Byte) : KeepsBut [.dt] s (s.setDt b) := fun f hf => by
  cases f <;> first | exact absurd List.mem_cons_self hf | rfl | exact fun _ => rfl | exact fun _ _ => rfl

theorem keeps_setSt (s : State) (b : Byte) : KeepsBut [.st] s (s.setSt b) := fun f hf => by
  cases f <;> first | exact absurd List.mem_cons_self hf | rfl | exact fun _ => rfl | exact fun _ _ => rfl

theorem keeps_setRun (s : State) (r : RunState) : KeepsBut [.run] s (s.setRun r) := fun f hf => by
  cases f <;> first | exact absurd List.mem_cons_self hf | rfl | exact fun _ => rfl | exact fun _ _ => rfl

theorem keeps_setKey (s : State) (k : Key) (b : Bool) : KeepsBut [.key] s (s.setKey k b) := fun f hf => by
  cases f <;> first | exact absurd List.mem_cons_self hf | rfl | exact fun _ => rfl | exact fun _ _ => rfl

theorem keeps_setMem (s : State) (m : Memory) : KeepsBut [.mem] s (s.setMem m) := fun f hf => by
  cases f <;> first | exact absurd List.mem_cons_self hf | rfl | exact fun _ => rfl | exact fun _ _ => rfl

theorem keeps_emit (s : State) (d : Diag) : KeepsBut [.diags] s (s.emit d) := fun f hf => by
  cases f <;> first | exact absurd List.mem_cons_self hf | rfl | exact fun _ => rfl | exact fun _ _ => rfl

theorem keeps_drawn (s : State) : KeepsBut [.draws] s s.drawn := fun f hf => by
  cases f <;> first | exact absurd List.mem_cons_self hf | rfl | exact fun _ => rfl | exact fun _ _ => rfl

theorem keeps_setFb (s : State) (p : Framebuffer) : KeepsBut [.fb, .redraw] s (s.setFb p) := fun f hf => by
  cases f <;> first | exact absurd (by decide) hf | rfl | exact fun _ => rfl

theorem keeps_push (s : State) (a : Word) : KeepsBut [.stack, .sp] s (s.push a) := fun f hf => by
  cases f <;> first | exact absurd (by decide) hf | rfl | exact fun _ => rfl | exact fun _ _ => rfl

theorem keeps_drop (s : State) : KeepsBut [.sp] s s.drop := fun f hf => by
  cases f <;> first | exact absurd (by decide) hf | rfl | exact fun _ => rfl | exact fun _ _ => rfl

/-- A fault changes run and the halt record only (R222). -/
theorem keeps_takeFault (e : Raised) (a w : Word) (s : State) : KeepsBut [.run, .halt] s (takeFault e a w s) :=
  fun f hf => by
    cases f <;> first | exact absurd (by decide) hf | rfl | exact fun _ => rfl | exact fun _ _ => rfl

/-! ### The frame of each shared operation -/

theorem keeps_writeFlagged (s : State) (x : Reg) (f g : State → Byte) :
    KeepsBut [.v] s (writeFlagged s x f g) ∧ KeepsRegsBut [x, VF] s (writeFlagged s x f g) := by
  obtain ⟨a, b, v, w, hab, e⟩ := writeFlagged_writes s x f g
  rw [e]
  refine ⟨(keeps_setV s a v).trans (keeps_setV _ b w) (List.Subset.refl _) (List.Subset.refl _), fun r hr => ?_⟩
  simp only [List.mem_cons, List.not_mem_nil, or_false, not_or] at hr
  rcases hab with ⟨rfl, rfl⟩ | ⟨rfl, rfl⟩ <;> simp [hr.1, hr.2]

theorem keeps_storeBytes {s t : State} {a : Nat} {bytes : List Byte} (h : storeBytes s a bytes = .ok t) :
    KeepsBut [.mem] s t := by
  obtain ⟨cells, _, rfl⟩ := storeBytes_ok h
  exact keeps_setMem s _

theorem keeps_drawFlag (s : State) (c : Bool) :
    KeepsBut [.v] s (drawFlag s c) ∧ KeepsRegsBut [VF] s (drawFlag s c) := by
  unfold drawFlag
  have key : ∀ b, KeepsBut [.v] s (s.setV VF b) ∧ KeepsRegsBut [VF] s (s.setV VF b) := fun b =>
    ⟨keeps_setV s VF b, fun r hr => by simp [List.mem_singleton.not.mp hr]⟩
  split
  · exact key 1
  · split
    · exact key 0
    · exact ⟨KeepsBut.refl _ s, fun _ _ => rfl⟩

end Sys2Proof.Machine
end

