-- ==== Sys2Proof/Laws/PerInstr.lean ====
section
/-!
SUPPORT. What holds of every instruction as syntax, one lemma per constructor: the word of an instruction carries the
fixed bits of its row of the opcode map (spec/30_encoding.md rule R89).
-/

namespace Sys2Proof.Laws.EncodeMatchesRow

/-- The word of the instruction, under the mask of its row, is the row's match value (R89). -/
def Statement (i : Instr) : Prop := encode i &&& (opcodeRow i).mask = (opcodeRow i).fixed

theorem cls : Statement .cls := rfl
theorem ret : Statement .ret := rfl
theorem sys (nnn : Imm12) : Statement (.sys nnn) := wordNNN_mask _ nnn
theorem jp (nnn : Imm12) : Statement (.jp nnn) := wordNNN_mask _ nnn
theorem call (nnn : Imm12) : Statement (.call nnn) := wordNNN_mask _ nnn
theorem seImm (x : Reg) (nn : Byte) : Statement (.seImm x nn) := wordXNN_mask_class _ x nn
theorem sneImm (x : Reg) (nn : Byte) : Statement (.sneImm x nn) := wordXNN_mask_class _ x nn
theorem seReg (x : Reg) (y : Reg) : Statement (.seReg x y) := wordXYN_mask_low _ x y _
theorem ldImm (x : Reg) (nn : Byte) : Statement (.ldImm x nn) := wordXNN_mask_class _ x nn
theorem addImm (x : Reg) (nn : Byte) : Statement (.addImm x nn) := wordXNN_mask_class _ x nn
theorem ldReg (x : Reg) (y : Reg) : Statement (.ldReg x y) := wordXYN_mask_low _ x y _
theorem orReg (x : Reg) (y : Reg) : Statement (.orReg x y) := wordXYN_mask_low _ x y _
theorem andReg (x : Reg) (y : Reg) : Statement (.andReg x y) := wordXYN_mask_low _ x y _
theorem xorReg (x : Reg) (y : Reg) : Statement (.xorReg x y) := wordXYN_mask_low _ x y _
theorem addReg (x : Reg) (y : Reg) : Statement (.addReg x y) := wordXYN_mask_low _ x y _
theorem subReg (x : Reg) (y : Reg) : Statement (.subReg x y) := wordXYN_mask_low _ x y _
theorem shr (x : Reg) (y : Reg) : Statement (.shr x y) := wordXYN_mask_low _ x y _
theorem subn (x : Reg) (y : Reg) : Statement (.subn x y) := wordXYN_mask_low _ x y _
theorem shl (x : Reg) (y : Reg) : Statement (.shl x y) := wordXYN_mask_low _ x y _
theorem sneReg (x : Reg) (y : Reg) : Statement (.sneReg x y) := wordXYN_mask_low _ x y _
theorem ldI (nnn : Imm12) : Statement (.ldI nnn) := wordNNN_mask _ nnn
theorem jpV0 (nnn : Imm12) : Statement (.jpV0 nnn) := wordNNN_mask _ nnn
theorem rnd (x : Reg) (nn : Byte) : Statement (.rnd x nn) := wordXNN_mask_class _ x nn
theorem drw (x : Reg) (y : Reg) (n : Nibble) : Statement (.drw x y n) := wordXYN_mask_class _ x y n
theorem skp (x : Reg) : Statement (.skp x) := wordXNN_mask_low _ x _
theorem sknp (x : Reg) : Statement (.sknp x) := wordXNN_mask_low _ x _
theorem ldXDt (x : Reg) : Statement (.ldXDt x) := wordXNN_mask_low _ x _
theorem ldXK (x : Reg) : Statement (.ldXK x) := wordXNN_mask_low _ x _
theorem ldDtX (x : Reg) : Statement (.ldDtX x) := wordXNN_mask_low _ x _
theorem ldStX (x : Reg) : Statement (.ldStX x) := wordXNN_mask_low _ x _
theorem addIX (x : Reg) : Statement (.addIX x) := wordXNN_mask_low _ x _
theorem ldFX (x : Reg) : Statement (.ldFX x) := wordXNN_mask_low _ x _
theorem ldBX (x : Reg) : Statement (.ldBX x) := wordXNN_mask_low _ x _
theorem ldMemX (x : Reg) : Statement (.ldMemX x) := wordXNN_mask_low _ x _
theorem ldXMem (x : Reg) : Statement (.ldXMem x) := wordXNN_mask_low _ x _

end Sys2Proof.Laws.EncodeMatchesRow
end

