-- ==== Sys2Proof/Laws/Step.lean ====
section
/-!
SUPPORT. What a step can do, said once (spec/30_encoding.md rules R90 to R92), and a fault in the words of Safety.lean.
-/

namespace Sys2Proof.Machine

theorem step_ready {s : State} (h : s.run = .ready) : step s = cycle s := by simp [step, stepRequest, h]

/-- A core that waits or has halted does not move (R92). -/
theorem step_not_ready {s : State} (h : s.run ≠ .ready) : step s = .next s := by
  cases hr : s.run with
  | ready => exact absurd hr h
  | waitKey x => simp [step, stepRequest, hr]
  | halted c => simp [step, stepRequest, hr]

/-- Everything a step that answers a next state can have done: nothing, in a core that is not Ready; or a fetch fault; or
one instruction; or passing over an UNKNOWN word. -/
theorem step_cases {s t : State} (h : step s = .next t) :
    (s.run ≠ .ready ∧ t = s) ∨
      (s.run = .ready ∧
        ((∃ r, fetch s = .error r ∧ t = takeFault r s.pc 0 s) ∨
          (∃ w i, fetch s = .ok w ∧ decodeWord s.cfg.strict59 w = .ok i ∧ exec i s = .next t) ∨
          ∃ w e, fetch s = .ok w ∧ decodeWord s.cfg.strict59 w = .error e ∧ t = skipUnknown w s)) := by
  by_cases hr : s.run = .ready
  · rw [step_ready hr, cycle] at h
    refine .inr ⟨hr, ?_⟩
    split at h
    · next w hw =>
      rw [runWord] at h
      split at h
      · next i hi => exact .inr (.inl ⟨w, i, hw, hi, h⟩)
      · next e he => cases h; exact .inr (.inr ⟨w, e, hw, he, rfl⟩)
    · next r hf => cases h; exact .inl ⟨r, hf, rfl⟩
  · rw [step_not_ready hr] at h
    cases h
    exact .inl ⟨hr, rfl⟩

/-- A fault other than that of the fetch records the word. -/
theorem takeFault_eq_haltedBy (s : State) {c : Cause} (h : c ≠ .fetchRange) (w : Word) (a : Nat) :
    takeFault { cause := c, info := a } s.pc w s = haltedBy s c w a := by
  simp [takeFault, haltedBy, h]

theorem isHalted_iff {s : State} : isHalted s = true ↔ ∃ c, s.run = .halted c := by
  unfold isHalted
  split <;> simp_all

end Sys2Proof.Machine
end

