-- ==== Sys2Proof/Tests/Slice0.lean ====
section
/-!
SUPPORT. The model's own tests: the well-formedness check, one word per instruction written out bit by bit from the
encoding table of spec/30_encoding.md rule R89, one step per instruction against spec/95_test_vectors.md (the vector
named beside each), and for every statement with hypotheses a witness that meets them. Expected results come from the
spec's vectors and rules.
-/

namespace Sys2Proof.Machine.Test

/-! ### Helpers -/

/-- The machine after reset with the word `w` at 0x200. -/
def start (w : Word) : State := placeNext State.reset w

/-- `s` under other parameters. -/
def withCfg (s : State) (f : Config → Config) : State := { s with cfg := f s.cfg }

/-- The state after one step; the state itself where the step stops. -/
def stepped (s : State) : State :=
  match step s with
  | .next t => t
  | .fault _ => s
  | .refused _ => s

/-- Whether the outcome is a next state that satisfies `p`. -/
def answers (r : Result) (p : State → Bool) : Bool :=
  match r with
  | .next t => p t
  | .fault _ => false
  | .refused _ => false

/-- The halt record of `s` is this one. -/
def haltedWith (s : State) (c : Cause) (pc w addr : Word) : Bool :=
  s.run == .halted c && s.halt == { cause := some c, pc := pc, word := w, addr := addr }

/-- The first bytes from `a` on. -/
def bytesAt (s : State) (a n : Nat) : List Byte := (List.range n).map fun k => s.peek (a + k)

/-- Registers V0, V1, ... loaded in order. -/
def withRegs (s : State) (bs : List Byte) : State := s.setRegs (setBlock 0 bs s.v)

/-- Bytes stored from `a` on. -/
def withBytes (s : State) (a : Nat) (bs : List Byte) : State :=
  s.setMem (writeCells s.cfg.font (cellsFrom a bs) s.mem)

/-- A framebuffer with one pixel lit. -/
def withPixel (s : State) (r : Fin 32) (c : Fin 64) : State := { s with fb := togglePixel s.fb r c }

/-! ### Well-formedness: the one check of R85 -/

theorem test_sys_00E0_ill_formed : Instr.wellFormed (.sys 0x0E0) = false := by decide
theorem test_sys_00EE_ill_formed : Instr.wellFormed (.sys 0x0EE) = false := by decide
theorem test_sys_01E0_well_formed : Instr.wellFormed (.sys 0x1E0) = true := by decide

/-! ### Decoding, each word written out from R89 and R81 -/

theorem test_decode_class0 :
    decodeWord true 0b0000000011100000 = .ok .cls ∧ decodeWord true 0b0000000011101110 = .ok .ret ∧
      decodeWord true 0b0000000100100011 = .ok (.sys 0x123) ∧ decodeWord true 0b0000111000001110 = .ok (.sys 0xE0E) := by
  decide

theorem test_decode_jumps :
    decodeWord true 0b0001101010111100 = .ok (.jp 0xABC) ∧ decodeWord true 0b0010001100000000 = .ok (.call 0x300) ∧
      decodeWord true 0b1011110011111111 = .ok (.jpV0 0xCFF) := by
  decide

theorem test_decode_skips :
    decodeWord true 0b0011000101000010 = .ok (.seImm 1 0x42) ∧
      decodeWord true 0b0100111101000011 = .ok (.sneImm 15 0x43) ∧
      decodeWord true 0b0101000100100000 = .ok (.seReg 1 2) ∧
      decodeWord true 0b1001001000010000 = .ok (.sneReg 2 1) := by
  decide

theorem test_decode_immediates :
    decodeWord true 0b0110101001011100 = .ok (.ldImm 10 0x5C) ∧
      decodeWord true 0b0111000100000010 = .ok (.addImm 1 0x02) ∧
      decodeWord true 0b1100001100001111 = .ok (.rnd 3 0x0F) := by
  decide

theorem test_decode_class8 :
    decodeWord true 0b1000000100100000 = .ok (.ldReg 1 2) ∧ decodeWord true 0b1000000100100001 = .ok (.orReg 1 2) ∧
      decodeWord true 0b1000000100100010 = .ok (.andReg 1 2) ∧ decodeWord true 0b1000000100100011 = .ok (.xorReg 1 2) ∧
      decodeWord true 0b1000000100100100 = .ok (.addReg 1 2) ∧ decodeWord true 0b1000000100100101 = .ok (.subReg 1 2) ∧
      decodeWord true 0b1000000100100110 = .ok (.shr 1 2) ∧ decodeWord true 0b1000000100100111 = .ok (.subn 1 2) ∧
      decodeWord true 0b1000000100101110 = .ok (.shl 1 2) := by
  decide

theorem test_decode_index_and_draw :
    decodeWord true 0b1010001011110000 = .ok (.ldI 0x2F0) ∧ decodeWord true 0b1101000000010101 = .ok (.drw 0 1 5) := by
  decide

theorem test_decode_keys :
    decodeWord true 0b1110001010011110 = .ok (.skp 2) ∧ decodeWord true 0b1110001010100001 = .ok (.sknp 2) := by
  decide

theorem test_decode_classF :
    decodeWord true 0b1111001100000111 = .ok (.ldXDt 3) ∧ decodeWord true 0b1111001100001010 = .ok (.ldXK 3) ∧
      decodeWord true 0b1111001100010101 = .ok (.ldDtX 3) ∧ decodeWord true 0b1111001100011000 = .ok (.ldStX 3) ∧
      decodeWord true 0b1111001000011110 = .ok (.addIX 2) ∧ decodeWord true 0b1111010000101001 = .ok (.ldFX 4) ∧
      decodeWord true 0b1111010100110011 = .ok (.ldBX 5) ∧ decodeWord true 0b1111001001010101 = .ok (.ldMemX 2) ∧
      decodeWord true 0b1111001001100101 = .ok (.ldXMem 2) := by
  decide

theorem test_decode_unknown :
    decodeWord true 0x8008 = .error (.unknownOpcode 0x8008) ∧ decodeWord true 0x5121 = .error (.unknownOpcode 0x5121) ∧
      decodeWord false 0x9123 = .ok (.sneReg 1 2) ∧ decodeWord true 0xE000 = .error (.unknownOpcode 0xE000) ∧
      decodeWord true 0xFFFF = .error (.unknownOpcode 0xFFFF) := by
  decide

theorem test_decode_bytes :
    decodeBytes true [0x60, 0x05, 0x70] = .ok (.ldImm 0 5, [0x70]) ∧ decodeBytes true [0x60] = .error .truncated ∧
      decodeTableWord 16 0xD015 = some (.drw 0 1 5) ∧ decodeTableWord 16 0x8008 = none := by
  decide

/-! ### Control flow (vectors CF01 to CF21, S2, P3) -/

/-- CF02 -/
theorem test_jp_odd : (stepped (start 0x1201)).pc = 0x201 := by decide
/-- CF17 -/
theorem test_jpV0 : (stepped ((start 0xBFFF).setV 0 0xFF)).pc = 0x10FE := by decide
/-- S2 -/
theorem test_call :
    let t := stepped (start 0x2300)
    t.stackAt 0 = 0x202 ∧ t.sp = 1 ∧ t.pc = 0x300 := by decide
/-- CF04 -/
theorem test_call_full :
    haltedWith (stepped { start 0x2300 with sp := 16 }) .stackOverflow 0x200 0x2300 0 = true := by decide
/-- S2: the return of the call -/
theorem test_ret :
    let t := stepped { start 0x00EE with sp := 1, stack := State.reset.stack.set 0 0x0202 }
    t.pc = 0x202 ∧ t.sp = 0 ∧ t.stackAt 0 = 0x202 := by decide
/-- CF03 -/
theorem test_ret_empty : haltedWith (stepped (start 0x00EE)) .stackUnderflow 0x200 0x00EE 0 = true := by decide
/-- CF05, CF06 -/
theorem test_seImm :
    (stepped ((start 0x3142).setV 1 0x42)).pc = 0x204 ∧ (stepped ((start 0x3142).setV 1 0x41)).pc = 0x202 := by decide
/-- CF07, CF08 -/
theorem test_sneImm :
    (stepped ((start 0x4142).setV 1 0x42)).pc = 0x202 ∧ (stepped ((start 0x4142).setV 1 0x41)).pc = 0x204 := by decide
/-- CF09, CF10 -/
theorem test_seReg :
    (stepped (withRegs (start 0x5120) [0, 7, 7])).pc = 0x204 ∧
      (stepped (withRegs (start 0x5120) [0, 7, 8])).pc = 0x202 := by decide
/-- CF13, CF14 -/
theorem test_sneReg :
    (stepped (withRegs (start 0x9120) [0, 7, 8])).pc = 0x204 ∧
      (stepped (withRegs (start 0x9120) [0, 7, 7])).pc = 0x202 := by decide

/-! ### ALU (vectors AL01 to AL34) -/

/-- AL01 -/
theorem test_ldImm : (stepped (start 0x6A5C)).getV 10 = 0x5C := by decide
/-- AL02 -/
theorem test_addImm_no_flag :
    let t := stepped (((start 0x7102).setV 1 0xFF).setV VF 0x55)
    t.getV 1 = 0x01 ∧ t.getV VF = 0x55 := by decide
/-- AL03 -/
theorem test_ldReg : (stepped (withRegs (start 0x8120) [0, 0x11, 0x99])).getV 1 = 0x99 := by decide
/-- AL04 -/
theorem test_orReg : (stepped (withRegs (start 0x8121) [0, 0xC3, 0x3C])).getV 1 = 0xFF := by decide
/-- AL05 -/
theorem test_andReg : (stepped (withRegs (start 0x8122) [0, 0xC3, 0x0F])).getV 1 = 0x03 := by decide
/-- AL06 -/
theorem test_xorReg : (stepped (withRegs (start 0x8123) [0, 0xFF, 0x0F])).getV 1 = 0xF0 := by decide
/-- AL08 -/
theorem test_addReg_carry :
    let t := stepped (withRegs (start 0x8124) [0, 0xFF, 0x01])
    t.getV 1 = 0x00 ∧ t.getV VF = 1 := by decide
/-- AL10, AL11: the destination is VF -/
theorem test_addReg_VF :
    let s := ((start 0x8F14).setV VF 0x80).setV 1 0x80
    (stepped s).getV VF = 0x00 ∧ (stepped (withCfg s ({ · with aluOrder := .flagLast }))).getV VF = 1 := by decide
/-- AL15 -/
theorem test_subReg_borrow :
    let t := stepped (withRegs (start 0x8125) [0, 3, 10])
    t.getV 1 = 0xF9 ∧ t.getV VF = 0 := by decide
/-- AL19, AL20: the source is VF -/
theorem test_subReg_VF :
    let s := ((start 0x81F5).setV VF 3).setV 1 10
    (stepped s).getV 1 = 0x09 ∧ (stepped (withCfg s ({ · with aluOrder := .flagLast }))).getV 1 = 0x07 := by decide
/-- AL22, AL23 -/
theorem test_shr :
    let s := withRegs (start 0x8126) [0, 0x05, 0x80]
    (stepped s).getV 1 = 0x02 ∧ (stepped s).getV VF = 1 ∧
      (stepped (withCfg s ({ · with shiftSrc := .vy }))).getV 1 = 0x40 := by decide
/-- AL24 -/
theorem test_shr_VF :
    let s := (start 0x8F06).setV VF 0x03
    (stepped s).getV VF = 0 ∧ (stepped (withCfg s ({ · with aluOrder := .flagLast }))).getV VF = 1 := by decide
/-- AL26 -/
theorem test_subn :
    let t := stepped (withRegs (start 0x8127) [0, 10, 3])
    t.getV 1 = 0xF9 ∧ t.getV VF = 0 := by decide
/-- AL27 -/
theorem test_subn_VF :
    let s := ((start 0x8F17).setV VF 2).setV 1 9
    (stepped s).getV VF = 8 ∧ (stepped (withCfg s ({ · with aluOrder := .flagLast }))).getV VF = 1 := by decide
/-- AL28, AL29 -/
theorem test_shl :
    let s := withRegs (start 0x812E) [0, 0x81, 0x01]
    (stepped s).getV 1 = 0x02 ∧ (stepped s).getV VF = 1 ∧
      (stepped (withCfg s ({ · with shiftSrc := .vy }))).getV VF = 0 := by decide
/-- AL30 -/
theorem test_shl_VF :
    let s := (start 0x8F0E).setV VF 0x81
    (stepped s).getV VF = 2 ∧ (stepped (withCfg s ({ · with aluOrder := .flagLast }))).getV VF = 1 := by decide
/-- AL34: a mask of 0 gives 0 for every byte drawn -/
theorem test_rnd_mask_zero : (stepped (start 0xC300)).getV 3 = 0 := BitVec.and_zero
/-- R135: each CXNN takes a fresh byte -/
theorem test_rnd_draws : (stepped (start 0xC30F)).draws = 1 := by decide

/-! ### Index register and memory (vectors MT01 to MT22) -/

/-- MT01 -/
theorem test_ldI : (stepped (start 0xA123)).index = 0x123 := by decide
/-- MT02 -/
theorem test_addIX_wraps : (stepped (((start 0xF31E).setV 3 0x10).setIndex 0xFFF8)).index = 0x0008 := by decide
/-- MT06 -/
theorem test_ldFX : (stepped ((start 0xF429).setV 4 0xFF)).index = 0x4FB := by decide
/-- MT07 -/
theorem test_ldBX :
    bytesAt (stepped (((start 0xF533).setV 5 156).setIndex 0x300)) 0x300 3 = [1, 5, 6] := by decide
/-- MT08, MT12 -/
theorem test_ldBX_edge :
    let s := ((start 0xF533).setV 5 123).setIndex 0xFFE
    haltedWith (stepped s) .memRange 0x200 0xF533 0x1000 = true ∧
      bytesAt (stepped (withCfg s ({ · with addrPolicy := .clamp }))) 0xFFE 2 = [1, 3] := by decide
/-- MT13 -/
theorem test_ldMemX :
    let t := stepped ((withRegs (start 0xF255) [1, 2, 3]).setIndex 0x400)
    bytesAt t 0x400 4 = [1, 2, 3, 0] ∧ t.index = 0x403 := by decide
/-- MT17 -/
theorem test_ldMemX_font :
    haltedWith (stepped ((withRegs (start 0xF255) [1, 2, 3]).setIndex 0x04E)) .fontWrite 0x200 0xF255 0x04E = true := by
  decide
/-- MT21 -/
theorem test_ldXMem :
    let t := stepped ((start 0xF265).setIndex 0x04E)
    [t.getV 0, t.getV 1, t.getV 2] = [0x80, 0x80, 0x00] ∧ t.index = 0x051 := by decide
/-- MT22 -/
theorem test_ldXMem_edge :
    haltedWith (stepped ((start 0xF165).setIndex 0xFFF)) .memRange 0x200 0xF165 0x1000 = true := by decide

/-! ### Display (vectors DS02 to DS12) -/

/-- DS10 -/
theorem test_cls :
    let t := stepped (withPixel (start 0x00E0) 5 5)
    pixel t.fb 5 5 = false ∧ t.redraw = true := by decide
/-- DS05 -/
theorem test_drw_collision :
    let t := stepped (withPixel (start 0xD011) 0 0)
    (t.fb.get 0).toList.take 8 = [false, true, true, true, false, false, false, false] ∧ t.getV VF = 1 := by
  decide
/-- DS02: the sprite crosses the right edge -/
theorem test_drw_wraps :
    let t := stepped (withBytes (((start 0xD012).setV 0 60).setIndex 0x300) 0x300 [0xFF, 0x81])
    pixel t.fb 0 63 = true ∧ pixel t.fb 0 3 = true ∧ pixel t.fb 0 4 = false ∧ pixel t.fb 1 60 = true ∧
      pixel t.fb 1 3 = true ∧ pixel t.fb 1 63 = false := by decide

/-! ### Timers and keypad (vectors TK01 to TK14) -/

/-- TK01, TK02 -/
theorem test_skp :
    let s := (start 0xE29E).setV 2 5
    (stepped (s.setKey 5 true)).pc = 0x204 ∧ (stepped s).pc = 0x202 := by decide
/-- TK05, TK06 -/
theorem test_skp_range :
    let s := ((start 0xE29E).setV 2 0x15).setKey 5 true
    haltedWith (stepped s) .keyRange 0x200 0xE29E 0x15 = true ∧
      (stepped (withCfg s ({ · with keyRange := .mask4 }))).pc = 0x204 := by decide
/-- TK03, TK04 -/
theorem test_sknp :
    let s := (start 0xE2A1).setV 2 5
    (stepped (s.setKey 5 true)).pc = 0x202 ∧ (stepped s).pc = 0x204 := by decide
/-- TK07 -/
theorem test_sknp_not_held :
    (stepped (withCfg (((start 0xE2A1).setV 2 0x15).setKey 5 true) ({ · with keyRange := .notHeld }))).pc = 0x204 := by
  decide
/-- TK08 -/
theorem test_ldXDt : (stepped ((start 0xF307).setDt 0x3C)).getV 3 = 0x3C := by decide
/-- TK09 -/
theorem test_ldDtX : (stepped ((start 0xF315).setV 3 0x3C)).dt = 0x3C := by decide
/-- TK10 -/
theorem test_ldStX :
    let t := stepped ((start 0xF318).setV 3 2)
    t.st = 2 ∧ tone t = true ∧ (tick t).st = 1 ∧ tone (tick (tick t)) = false := by decide
/-- TK11: the step part; a key held before does not count -/
theorem test_ldXK :
    let t := stepped ((start 0xF30A).setKey 4 true)
    t.run = .waitKey 3 ∧ t.pc = 0x202 ∧ t.getV 3 = 0 ∧ stepStatus t (stepped t) = .pending := by decide
/-- TK11: the completion -/
theorem test_ldXK_completes :
    let t := keyDown 7 (keyUp 4 (stepped ((start 0xF30A).setKey 4 true)))
    t.run = .ready ∧ t.getV 3 = 7 ∧ t.key.get 7 = true ∧ t.pc = 0x202 := by decide
/-- TK12 -/
theorem test_stop_while_waiting : haltedWith (stop (stepped (start 0xF30A))) .stopped 0x202 0 0 = true := by decide

/-! ### System and unknown words (vectors SY01, SY02, SY08) -/

/-- SY01 -/
theorem test_sys_nop :
    let t := stepped (start 0x0123)
    t.pc = 0x202 ∧ t.diags = [{ kind := .unimplemented, word := 0x0123, addr := 0x200 }] := by decide
/-- SY02 -/
theorem test_sys_fatal :
    haltedWith (stepped (withCfg (start 0x0123) ({ · with sysPolicy := .fatal }))) .sysUnimplemented 0x200 0x0123 0
      = true := by decide
/-- SY08 -/
theorem test_unknown :
    let t := stepped (start 0xFFFF)
    t.pc = 0x202 ∧ t.diags = [{ kind := .unknownOpcode, word := 0xFFFF, addr := 0x200 }] := by decide

/-! ### Fetch and load (vectors CF19, CF20, LD02, LD03) -/

/-- CF19 -/
theorem test_fetch_edge : haltedWith (stepped (State.reset.setPc 0xFFF)) .fetchRange 0xFFF 0 0x1000 = true := by decide
/-- CF20 -/
theorem test_fetch_wraps :
    let s := withCfg (withBytes (withBytes (State.reset.setPc 0xFFF) 0xFFF [0x60]) 0x000 [0x60])
      ({ · with addrPolicy := .wrap12 })
    (stepped s).getV 0 = 0x60 ∧ (stepped s).pc = 0x1001 := by decide
/-- LD03: the step after a load of nothing -/
theorem test_empty_image :
    (stepped State.reset).diags = [{ kind := .unimplemented, word := 0, addr := 0x200 }] := by decide
/-- withFetchWord puts the word where the next step runs it -/
theorem test_withFetchWord : stepped (State.reset.withFetchWord 16 0x6A5C) = stepped (start 0x6A5C) := rfl

/-! ### Witnesses: states and operands that meet the hypotheses of each statement, clause by clause -/

/-- A core that waits for a key into V3. -/
def waiting : State := stepped (start 0xF30A)

/-- A core halted by a return on an empty stack. -/
def stuck : State := stepped (start 0x00EE)

theorem witness_EncodedInstructionDecodesBack : WellFormed (.sys 0xFFF) ∧ WellFormed (.drw 15 15 15) := by decide

theorem witness_DecodedInstructionEncodesToItsWord :
    decodeWord true 0x5120 = .ok (.seReg 1 2) ∧ decodeWord false 0x512F = .ok (.seReg 1 2) ∧
      decodeWord false 0x9FFF = .ok (.sneReg 15 15) ∧ decodeWord false 0x0000 = .ok (.sys 0) := by
  decide

theorem witness_UnknownWordsAreThoseOfTheTable :
    unknownWord true 0x500F = true ∧ unknownWord false 0x500F = false ∧ unknownWord true 0xF065 = false ∧
      unknownWord false 0x800F = true := by
  decide

theorem witness_StepRunsTheDecodedInstruction :
    let s := withBytes (State.reset.setPc 0xFFE) 0xFFE [0x6A, 0x5C]
    s.run = .ready ∧ s.pc.toNat + 1 < 0x1000 ∧
      decodeWord s.cfg.strict59 (wordOfBytes (s.peek s.pc.toNat) (s.peek (s.pc.toNat + 1))) = .ok (.ldImm 10 0x5C) := by
  decide

theorem witness_StepRunsTheDecodedInstruction_fetch :
    let s := withCfg (withBytes (State.reset.setPc 0xFFF) 0xFFF [0x60]) ({ · with addrPolicy := .wrap12 })
    s.run = .ready ∧ fetch s = .ok 0x60F0 ∧ decodeWord s.cfg.strict59 0x60F0 = .ok (.ldImm 0 0xF0) := by
  decide

theorem witness_FetchReadsTheWordAtPc_inside : (State.reset.setPc 0xFFE).pc.toNat + 1 < 0x1000 := by decide

theorem witness_FetchReadsTheWordAtPc_fault :
    State.reset.cfg.addrPolicy = .fault ∧ 0x1000 ≤ (State.reset.setPc 0x1000).pc.toNat ∧
      0x1000 ≤ (State.reset.setPc 0xFFFF).pc.toNat ∧ (State.reset.setPc 0xFFF).pc.toNat = 0xFFF := by
  decide

theorem witness_FetchReadsTheWordAtPc_policies :
    (withCfg State.reset ({ · with addrPolicy := .wrap12 })).cfg.addrPolicy = .wrap12 ∧
      (withCfg State.reset ({ · with addrPolicy := .clamp })).cfg.addrPolicy = .clamp := by
  decide

theorem witness_FetchOutsideMemoryHalts :
    let s := State.reset.setPc 0xFFF
    s.run = .ready ∧ s.cfg.addrPolicy = .fault ∧ 0xFFF ≤ s.pc.toNat := by
  decide

theorem witness_StepRequestAnswersItsStatus_stopped :
    waiting.run = .waitKey 3 ∧ stuck.run = .halted .stackUnderflow := by
  decide

theorem witness_StepRequestAnswersItsStatus_ready :
    let s := start 0x00EE
    s.run = .ready ∧ step s = .next (stepped s) ∧ (stepped s).run = .halted .stackUnderflow :=
  ⟨rfl, rfl, rfl⟩

theorem witness_StepRequestAnswersItsStatus_ok :
    let s := start 0x6A5C
    s.run = .ready ∧ step s = .next (stepped s) ∧ ∀ c, (stepped s).run ≠ .halted c :=
  ⟨rfl, rfl, fun _ h => by cases h⟩

theorem witness_UnknownWordIsReportedAndPassedOver :
    let s := start 0x8008
    s.run = .ready ∧ fetch s = .ok 0x8008 ∧ unknownWord s.cfg.strict59 0x8008 = true := by
  decide

theorem witness_SelfJumpStaysForEver :
    let s := start 0x1200
    s.run = .ready ∧ fetch s = .ok (encode (.jp 0x200)) ∧ s.pc.toNat = (0x200 : Imm12).toNat := by
  decide

theorem witness_FaultingStepIsPrecise :
    let s := start 0x00EE
    s.run = .ready ∧ step s = .next (stepped s) ∧ isHalted (stepped s) = true :=
  ⟨rfl, rfl, rfl⟩

theorem witness_FaultingStepIsPrecise_fetch :
    let s := State.reset.setPc 0xFFFF
    s.run = .ready ∧ step s = .next (stepped s) ∧ isHalted (stepped s) = true ∧
      (stepped s).run = .halted .fetchRange :=
  ⟨rfl, rfl, rfl, rfl⟩

theorem witness_FaultsAreThoseTheTableLists :
    let s := start 0x00EE
    s.run = .ready ∧ exec .ret s = .next (stepped s) ∧ (stepped s).run = .halted .stackUnderflow :=
  ⟨rfl, rfl, rfl⟩

theorem witness_FaultsAreRaisedExactlyAsTheTableSays :
    let s := start 0x00EE
    s.run = .ready ∧ exec .ret s = .next (stepped s) ∧ (stepped s).run = .halted .stackUnderflow ∧
      Raises .ret s .stackUnderflow 0 :=
  ⟨rfl, rfl, rfl, rfl, rfl, rfl⟩

theorem witness_FaultsAreRaisedExactlyAsTheTableSays_full :
    Raises (.call 0x300) { State.reset with sp := 16 } .stackOverflow 0 := by
  unfold Raises; decide

theorem witness_FaultsAreRaisedExactlyAsTheTableSays_sys :
    Raises (.sys 0x123) (withCfg State.reset ({ · with sysPolicy := .fatal })) .sysUnimplemented 0 := by
  unfold Raises; decide

theorem witness_FaultsAreRaisedExactlyAsTheTableSays_key :
    Raises (.skp 2) (State.reset.setV 2 16) .keyRange 16 := by
  unfold Raises KeyRaises; decide

theorem witness_FaultsAreRaisedExactlyAsTheTableSays_load :
    Raises (.ldXMem 1) (State.reset.setIndex 0xFFF) .memRange 0x1000 :=
  ⟨1, by unfold FirstReadFault; decide, rfl, rfl⟩

theorem witness_FaultsAreRaisedExactlyAsTheTableSays_store :
    Raises (.ldBX 5) (State.reset.setIndex 0xFFE) .memRange 0x1000 :=
  ⟨2, by unfold FirstStoreFault; decide, .inl (by decide)⟩

theorem witness_FaultsAreRaisedExactlyAsTheTableSays_font :
    Raises (.ldMemX 2) (State.reset.setIndex 0x04F) .fontWrite 0x04F :=
  ⟨0, by unfold FirstStoreFault; decide, .inr (by decide)⟩

theorem witness_HaltedIsFinal : stuck.run = .halted .stackUnderflow ∧ Transaction.tick ≠ .readClearRedraw := by decide

theorem witness_OnlyABadStackPointerStopsTheMachine :
    let s := { State.reset with sp := 17 }
    16 < s.sp.toNat ∧ exec .ret s = .fault .stackPointerOutOfRange ∧
      exec (.call 0) s = .fault .stackPointerOutOfRange :=
  ⟨by decide, rfl, rfl⟩

theorem witness_StepKeepsTheInvariant :
    let s := start 0x2300
    Inv s ∧ step s = .next (stepped s) :=
  ⟨by decide, rfl⟩

theorem witness_NoRunOfTransactionsStops : Inv State.reset ∧ Inv waiting ∧ Inv stuck := by decide

theorem witness_FontRegionIsImmutable :
    performAll [.tick] State.reset = .next State.reset ∧ State.reset.cfg.fontWrite ≠ .write ∧ FontIntact State.reset :=
  ⟨rfl, by decide, fun _ _ => rfl⟩

theorem witness_EachInstructionKeepsWhatItDoesNotWrite :
    exec (.ldImm 15 1) State.reset = .next (State.reset.advance.setV 15 1) := rfl

theorem witness_UnreadRegistersHaveNoInfluence :
    (3 : Reg) ∉ sourceRegs State.reset.cfg (.addReg 1 2) ∧ (3 : Reg) ∉ destRegs (.addReg 1 2) ∧
      ∃ t, exec (.addReg 1 2) State.reset = .next t :=
  ⟨by decide, by decide, _, rfl⟩

theorem witness_PcAfterEveryInstruction :
    let s := start 0x00EE
    s.run = .ready ∧ exec .ret s = .next (stepped s) ∧ isHalted (stepped s) = true :=
  ⟨rfl, rfl, rfl⟩

theorem witness_PcAfterEveryInstruction_next :
    State.reset.run = .ready ∧ exec (.jp 0xFFF) State.reset = .next (State.reset.setPc 0xFFF) ∧
      isHalted (State.reset.setPc 0xFFF) = false :=
  ⟨rfl, rfl, rfl⟩

theorem witness_AddressCheckFollowsThePolicy : 0xFFF < 0x1000 ∧ 0x1000 ≤ 0x1000 ∧ 0x1000 ≤ 0x1000E := by decide

theorem witness_ByteStoreGuardsTheFont_raises :
    Memory.wf State.reset.cfg.font State.reset.mem = true ∧
      effectiveAddr State.reset.cfg.addrPolicy .data 0x1000 = .error { cause := .memRange, info := 0x1000 } := by
  decide

theorem witness_ByteStoreGuardsTheFont_font :
    effectiveAddr State.reset.cfg.addrPolicy .data 0x04F = .ok 0x04F ∧ 0x04F ≤ 0x04F ∧
      State.reset.cfg.fontWrite = .fault ∧
      (withCfg State.reset ({ · with fontWrite := .ignore })).cfg.fontWrite = .ignore := by
  decide

theorem witness_ByteStoreGuardsTheFont_stores :
    effectiveAddr State.reset.cfg.addrPolicy .data 0x050 = .ok 0x050 ∧ 0x04F < 0x050 ∧
      (withCfg State.reset ({ · with fontWrite := .write })).cfg.fontWrite = .write := by
  decide

theorem witness_CallPushesTheReturnAddress :
    ({ State.reset with sp := 15 } : State).sp.toNat < 16 ∧ ({ State.reset with sp := 16 } : State).sp.toNat = 16 := by
  decide

theorem witness_ReturnPopsIntoPc :
    1 ≤ ({ State.reset with sp := 1 } : State).sp.toNat ∧ ({ State.reset with sp := 16 } : State).sp.toNat ≤ 16 ∧
      State.reset.sp.toNat = 0 := by
  decide

theorem witness_ReturnLandsAfterTheCall :
    let s := start 0x2300
    s.sp.toNat < 16 ∧ exec (.call 0x300) s = .next (stepped s) :=
  ⟨by decide, rfl⟩

theorem witness_ShiftRightSetsShiftedOutBit :
    (State.reset.cfg.shiftSrc = .vx → (1 : Reg) = 1) ∧ (State.reset.cfg.shiftSrc = .vy → (1 : Reg) = 2) := by decide

theorem witness_ShiftLeftSetsShiftedOutBit :
    let s := withCfg State.reset ({ · with shiftSrc := .vy })
    (s.cfg.shiftSrc = .vx → (2 : Reg) = 1) ∧ (s.cfg.shiftSrc = .vy → (2 : Reg) = 2) := by
  decide

theorem witness_DecimalDigitsAreStored :
    let s := State.reset.setIndex 0xFFD
    Memory.wf s.cfg.font s.mem = true ∧
      ∀ k, k < 3 → ¬RangeFails s.cfg (s.index.toNat + k) ∧ ¬FontFails s.cfg (s.index.toNat + k) := by
  decide

theorem witness_DecimalDigitsAreStored_range :
    FirstStoreFault defaultConfig (0xFFE : Word).toNat 3 2 ∧ RangeFails defaultConfig ((0xFFE : Word).toNat + 2) := by
  unfold FirstStoreFault; decide

theorem witness_DecimalDigitsAreStored_font :
    FirstStoreFault defaultConfig (0x04F : Word).toNat 3 0 ∧ ¬RangeFails defaultConfig ((0x04F : Word).toNat + 0) := by
  unfold FirstStoreFault; decide

theorem witness_RegisterBlockIsStored :
    let s := State.reset.setIndex 0xFF0
    Memory.wf s.cfg.font s.mem = true ∧ ∀ k, k ≤ (15 : Reg).val →
      ¬RangeFails s.cfg (s.index.toNat + k) ∧ ¬FontFails s.cfg (s.index.toNat + k) := by
  simp only [Nat.le_iff_lt_add_one]; decide

theorem witness_RegisterBlockIsStored_fault :
    FirstStoreFault defaultConfig (0xFF1 : Word).toNat 16 15 ∧ FirstStoreFault defaultConfig (0x04E : Word).toNat 3 0 := by
  unfold FirstStoreFault; decide

theorem witness_RegisterBlockIsLoaded :
    ∀ k, k ≤ (15 : Reg).val → ¬RangeFails defaultConfig ((0xFF0 : Word).toNat + k) := by
  simp only [Nat.le_iff_lt_add_one]; decide

theorem witness_RegisterBlockIsLoaded_fault : FirstReadFault defaultConfig (0xFFF : Word).toNat 2 1 := by
  unfold FirstReadFault; decide

theorem witness_StoredBlockLoadsBack :
    let s := start 0xF255 |>.setIndex 0x050
    let t := stepped s
    Memory.wf s.cfg.font s.mem = true ∧ s.index.toNat + (2 : Reg).val < 0x1000 ∧ 0x04F < s.index.toNat ∧
      exec (.ldMemX 2) s = .next t ∧ (t.setIndex 0x050).index = s.index ∧ (t.setIndex 0x050).cfg = t.cfg ∧
      (t.setIndex 0x050).mem = t.mem :=
  ⟨by decide, by decide, by decide, rfl, rfl, rfl, rfl⟩

theorem witness_FetchSeesStoredBytes :
    let s := start 0xFF55 |>.setIndex 0xFF0
    let t := stepped s
    Memory.wf s.cfg.font s.mem = true ∧ s.index.toNat + (15 : Reg).val < 0x1000 ∧ 0x04F < s.index.toNat ∧
      exec (.ldMemX 15) s = .next t ∧ (15 : Reg).val = (14 : Reg).val + 1 ∧
      (t.setPc 0xFFE).pc.toNat = s.index.toNat + (14 : Reg).val :=
  ⟨by decide, by decide, by decide, rfl, by decide, by decide⟩

theorem witness_DrawTogglesThePixelsOfTheSprite :
    ∀ k, k < (15 : Nibble).toNat → ¬RangeFails defaultConfig ((0xFF1 : Word).toNat + k) := by
  decide

theorem witness_DrawTogglesThePixelsOfTheSprite_covers :
    let s := withPixel State.reset 0 0
    (SpriteCovers s 0 1 1 0 0 ∧ pixel s.fb 0 0 = true) ∧ ¬SpriteCovers s 0 1 0 0 0 :=
  ⟨⟨⟨0, by decide, 0, by decide, by decide, by decide, by decide⟩, by decide⟩,
    fun ⟨_, h, _⟩ => absurd h (Nat.not_lt_zero _)⟩

theorem witness_DrawTogglesThePixelsOfTheSprite_none :
    ¬∃ r c, SpriteCovers State.reset 0 1 0 r c ∧ pixel State.reset.fb r c = true :=
  fun ⟨_, _, ⟨_, h, _⟩, _⟩ => absurd h (Nat.not_lt_zero _)

theorem witness_DrawTogglesThePixelsOfTheSprite_fault : FirstReadFault defaultConfig (0xFFE : Word).toNat 5 2 := by
  unfold FirstReadFault; decide

theorem witness_DrawingTwiceRestoresTheFramebuffer :
    let s := start 0xD015
    let t := stepped s
    s.run = .ready ∧ exec (.drw 0 1 5) s = .next t ∧ isHalted t = false ∧ t.getV 0 = s.getV 0 ∧ t.getV 1 = s.getV 1 ∧
      ∃ u, exec (.drw 0 1 5) t = .next u :=
  ⟨rfl, rfl, by decide, by decide, by decide, _, rfl⟩

theorem witness_KeySkipsTestTheKey :
    ((State.reset.setV 2 15).getV 2).toNat = (15 : Key).val ∧
      (0xF < ((State.reset.setV 2 16).getV 2).toNat ∧ State.reset.cfg.keyRange = .fault) := by
  decide

theorem witness_KeySkipsTestTheKey_policies :
    let s := withCfg (State.reset.setV 2 0xFF) ({ · with keyRange := .mask4 })
    let t := withCfg (State.reset.setV 2 16) ({ · with keyRange := .notHeld })
    (0xF < (s.getV 2).toNat ∧ s.cfg.keyRange = .mask4 ∧ (s.getV 2).toNat % 16 = (15 : Key).val) ∧
      0xF < (t.getV 2).toNat ∧ t.cfg.keyRange = .notHeld := by
  decide

theorem witness_WaitForKeyCompletesOnKeyDown :
    ∀ tr ∈ [Transaction.step, .tick, .keyUp 3, .status], tr ≠ .stop ∧ ∀ k, tr ≠ .keyDown k := by
  decide

theorem witness_LegacyCallFollowsThePolicy :
    State.reset.cfg.sysPolicy = .nop ∧
      (withCfg State.reset ({ · with sysPolicy := .fatal })).cfg.sysPolicy = .fatal := by
  decide

theorem witness_TicksCountDownToZero : isHalted stuck = true ∧ isHalted waiting = false := by decide

theorem witness_TicksCountDownToZero_exec :
    exec (.ldImm 10 0x5C) (start 0x6A5C) = .next (stepped (start 0x6A5C)) ∧ (∀ x, Instr.ldImm 10 0x5C ≠ .ldDtX x) ∧
      ∀ x, Instr.ldImm 10 0x5C ≠ .ldStX x :=
  ⟨rfl, by decide, by decide⟩

theorem witness_TicksCountDownToZero_step :
    let s := State.reset.setPc 0xFFF
    step s = .next (stepped s) ∧ step (start 0x8008) = .next (stepped (start 0x8008)) ∧
      step (start 0xF315) = .next (stepped (start 0xF315)) :=
  ⟨rfl, rfl, rfl⟩

theorem witness_KeyEventsSetAndClearTheKey :
    isHalted stuck = true ∧ isHalted State.reset = false ∧ State.reset.run = .ready ∧ waiting.run = .waitKey 3 ∧
      (3 : Key) ≠ 7 := by
  decide

theorem witness_StopHaltsAndRecordsPc : isHalted stuck = true ∧ isHalted waiting = false := by decide

theorem witness_LoadBuildsTheState :
    0xE00 < (List.replicate 0xE01 (0 : Byte)).length ∧ (List.replicate 0xE00 (0 : Byte)).length ≤ 0xE00 := by
  simp only [List.length_replicate]; decide

theorem witness_ConstructionSetsTheModelsOwnFields :
    load defaultConfig 0 [] = .ok State.reset ∧ reload stuck [] = .ok State.reset :=
  ⟨rfl, rfl⟩

end Sys2Proof.Machine.Test
end

section
/-!
PROOF. What an instruction, a step and a transaction keep (spec/10_state.md rules R22 to R37, spec/60_exceptions.md
rule R240), and the induction over a run of transactions.
-/

namespace Sys2Proof.Machine

/-! ### The frame of every instruction -/

/-- The frame of a meaning that writes pc after the fetch's advance. -/
theorem KeepsBut.of_advance_pc {fs : List Field} {s t : State} (h : KeepsBut (.pc :: fs) s.advance t) :
    KeepsBut (.pc :: fs) s t :=
  (keeps_advance s).trans h (by simp) (List.Subset.refl _)

/-- An instruction that can raise changes what its meaning changes, or run and the halt record (R222). -/
theorem conclude_keeps (fs : List Field) {w : Word} {s t : State} {r : Except Raised State}
    (h : conclude w s r = .next t) (hok : ∀ u, r = .ok u → KeepsBut (.pc :: fs) s u) :
    KeepsBut (.pc :: (fs ++ [.run, .halt])) s t := by
  rcases conclude_cases h with hr | ⟨e, _, rfl⟩
  · exact (hok t hr).mono (by simp)
  · exact (keeps_takeFault e s.pc w s).mono (by simp)

theorem drawSprite_keeps {x y : Reg} {n : Nibble} {s t : State} (h : drawSprite x y n s = .ok t) :
    KeepsBut [.v, .fb, .redraw] s t := by
  unfold drawSprite at h
  split at h
  · cases h
  · cases h
    exact (keeps_drawFlag s _).1.trans (keeps_setFb _ _) (by decide) (by decide)

/-- FX55 is its stores and then the write of I (R154). -/
theorem storeBlock_ok {x : Reg} {s t : State} (h : storeBlock x s = .ok t) :
    ∃ u, storeBytes s s.index.toNat (blockRegs s x) = .ok u ∧
      t = u.setIndex (s.index + BitVec.ofNat 16 (blockSize x)) := by
  unfold storeBlock at h
  split at h
  · cases h
  · next u hu => cases h; exact ⟨u, hu, rfl⟩

theorem storeBlock_keeps {x : Reg} {s t : State} (h : storeBlock x s = .ok t) : KeepsBut [.mem, .index] s t := by
  obtain ⟨u, hu, rfl⟩ := storeBlock_ok h
  exact (keeps_storeBytes hu).trans (keeps_setIndex u _) (by decide) (by decide)

theorem loadBlock_keeps {x : Reg} {s t : State} (h : loadBlock x s = .ok t) : KeepsBut [.v, .index] s t := by
  unfold loadBlock at h
  split at h
  · cases h
  · cases h
    exact (keeps_setRegs s _).trans (keeps_setIndex _ _) (by decide) (by decide)

theorem execRet_keeps {s t : State} (h : execRet s = .next t) : KeepsBut [.pc, .sp, .run, .halt] s t := by
  unfold execRet at h
  split at h
  · cases h
  · refine conclude_keeps [.sp] h fun u hu => ?_
    split at hu
    · cases hu
    · cases hu
      exact ((keeps_setPc _ _).trans (keeps_drop _) (by decide) (by decide)).of_advance_pc

theorem execCall_keeps {nnn : Imm12} {s t : State} (h : execCall nnn s = .next t) :
    KeepsBut [.pc, .stack, .sp, .run, .halt] s t := by
  unfold execCall at h
  split at h
  · cases h
  · refine conclude_keeps [.stack, .sp] h fun u hu => ?_
    split at hu
    · cases hu
    · cases hu
      exact ((keeps_push _ _).trans (keeps_setPc _ _) (by decide) (by decide)).of_advance_pc

theorem keeps_drawn_setV (x : Reg) (b : Byte) (s : State) :
    KeepsBut [.pc, .v, .draws] s (s.advance.drawn.setV x b) :=
  ((keeps_drawn _).trans (keeps_setV _ _ _) (by decide) (by decide)).of_advance

theorem execSys_keeps {nnn : Imm12} {s t : State} (h : execSys nnn s = .next t) :
    KeepsBut [.pc, .diags, .run, .halt] s t := by
  refine conclude_keeps [.diags] h fun u hu => ?_
  split at hu
  · cases hu
    exact (keeps_emit _ _).of_advance
  · cases hu

/-- Beside pc, an instruction changes the elements listed for it and no other. -/
theorem exec_keeps {i : Instr} {s t : State} (h : exec i s = .next t) : KeepsBut (.pc :: writtenFields i) s t := by
  cases i with
  | cls => cases h; exact (keeps_setFb _ _).of_advance
  | ret => exact execRet_keeps h
  | sys => exact execSys_keeps h
  | call => exact execCall_keeps h
  | jp | jpV0 => cases h; exact (keeps_setPc _ _).of_advance_pc
  | seImm | sneImm | seReg | sneReg => cases h; exact (keeps_skipIf _ _).of_advance_pc
  | ldImm | addImm | ldReg | orReg | andReg | xorReg | ldXDt => cases h; exact (keeps_setV _ _ _).of_advance
  | addReg | subReg | shr | subn | shl => cases h; exact (keeps_writeFlagged _ _ _ _).1.of_advance
  | rnd => cases h; exact keeps_drawn_setV _ _ s
  | ldI | addIX | ldFX => cases h; exact (keeps_setIndex _ _).of_advance
  | ldDtX => cases h; exact (keeps_setDt _ _).of_advance
  | ldStX => cases h; exact (keeps_setSt _ _).of_advance
  | ldXK => cases h; exact (keeps_setRun _ _).of_advance
  | drw => exact conclude_keeps _ h fun _ hu => (drawSprite_keeps hu).of_advance
  | skp | sknp =>
    refine conclude_keeps [] h fun u hu => ?_
    split at hu
    · cases hu
    · cases hu
      exact (keeps_skipIf _ _).of_advance_pc
  | ldBX => exact conclude_keeps _ h fun _ hu => (keeps_storeBytes hu).of_advance
  | ldMemX => exact conclude_keeps _ h fun _ hu => (storeBlock_keeps hu).of_advance
  | ldXMem => exact conclude_keeps _ h fun _ hu => (loadBlock_keeps hu).of_advance

/-! ### The frame of every other transaction -/

theorem keeps_skipUnknown (w : Word) (s : State) : KeepsBut [.pc, .diags] s (skipUnknown w s) :=
  (keeps_emit _ _).of_advance

theorem keeps_tick (s : State) : KeepsBut [.dt, .st] s (tick s) := by
  unfold tick
  split
  · exact KeepsBut.refl _ s
  · exact (keeps_setDt s (countDown s.dt)).trans (keeps_setSt _ (countDown s.st)) (by decide) (by decide)

theorem keeps_keyDown (k : Key) (s : State) : KeepsBut [.key, .v, .run] s (keyDown k s) := by
  unfold keyDown
  split
  · exact KeepsBut.refl _ s
  · exact (keeps_setKey s k true).mono (by decide)
  · next x _ =>
    have hv : KeepsBut [.key, .v] s ((s.setKey k true).setV x (BitVec.ofNat 8 k.val)) :=
      (keeps_setKey s k true).trans (keeps_setV _ _ _) (by decide) (by decide)
    exact hv.trans (keeps_setRun _ _) (by decide) (by decide)

theorem keeps_keyUp (k : Key) (s : State) : KeepsBut [.key] s (keyUp k s) := by
  unfold keyUp
  split
  · exact KeepsBut.refl _ s
  · exact keeps_setKey s k false

theorem keeps_stop (s : State) : KeepsBut [.run, .halt] s (stop s) := by
  unfold stop
  split
  · exact KeepsBut.refl _ s
  · exact keeps_takeFault _ _ _ s

theorem keeps_readClearRedraw (s : State) : KeepsBut [.redraw] s (readClearRedraw s).2 := fun f hf => by
  have same := Field.Same.refl f s
  cases f
  case redraw => exact absurd List.mem_cons_self hf
  all_goals exact same

/-! ### Runs of transactions -/

/-- The STEP transaction is answered where the step is. -/
theorem perform_step {s t : State} {r : Response} (h : perform .step s = .next (t, r)) : step s = .next t := by
  simp only [perform] at h
  split at h
  · next hs => cases h; exact hs
  · cases h
  · cases h

/-- A run that is answered is an answered transaction and then an answered run. -/
theorem performAll_cons {tr : Transaction} {ts : List Transaction} {s u : State}
    (h : performAll (tr :: ts) s = .next u) : ∃ t r, perform tr s = .next (t, r) ∧ performAll ts t = .next u := by
  simp only [performAll] at h
  split at h
  · next t r ht => exact ⟨t, r, ht, h⟩
  · cases h
  · cases h

/-- The induction over a run: a reflexive and transitive relation that every transaction meets, every run meets. -/
theorem performAll_relates {R : State → State → Prop} (refl : ∀ s, R s s)
    (trans : ∀ {s t u}, R s t → R t u → R s u)
    (one : ∀ {tr s t r}, perform tr s = .next (t, r) → R s t) :
    ∀ {ts : List Transaction} {s t : State}, performAll ts s = .next t → R s t
  | [], s, _, h => by cases h; exact refl s
  | _ :: _, _, _, h =>
    have ⟨_, _, h1, h2⟩ := performAll_cons h
    trans (one h1) (performAll_relates refl trans one h2)

end Sys2Proof.Machine
end

section
/-!
PROOF. The parameters and the font region (spec/00_scope.md rule R9, spec/20_memory.md rules R55 and R56).
-/

namespace Sys2Proof.Machine

/-- The parameters are the same in both states and, unless P_FONT_WRITE = WRITE, so is every font byte. In contrast to
FontIntact it asks nothing of the first state, so that it composes along a run. -/
def KeepsFont (s t : State) : Prop :=
  t.cfg = s.cfg ∧ (s.cfg.fontWrite ≠ .write → ∀ a, a < fontSize → t.peek a = s.peek a)

theorem KeepsFont.trans {s t u : State} (h1 : KeepsFont s t) (h2 : KeepsFont t u) : KeepsFont s u := by
  obtain ⟨hc1, hf1⟩ := h1
  obtain ⟨hc2, hf2⟩ := h2
  exact ⟨hc2.trans hc1, fun hw a ha => (hf2 (by rwa [hc1]) a ha).trans (hf1 hw a ha)⟩

/-- What changes neither the parameters nor memory keeps the font. -/
theorem KeepsBut.keepsFont {fs : List Field} {s t : State} (h : KeepsBut fs s t) (hc : Field.cfg ∉ fs)
    (hm : Field.mem ∉ fs) : KeepsFont s t :=
  ⟨h .cfg hc, fun _ a _ => h .mem hm a⟩

theorem KeepsFont.refl (s : State) : KeepsFont s s := (KeepsBut.refl [] s).keepsFont (by decide) (by decide)

theorem KeepsFont.intact {s t : State} (h : KeepsFont s t) (hw : s.cfg.fontWrite ≠ .write) (hs : FontIntact s) :
    FontIntact t := fun a ha => by
  rw [h.2 hw a ha, h.1]
  exact hs a ha

/-- The stores write cells of the font region under P_FONT_WRITE = WRITE only (R55). -/
theorem storeBytes_keepsFont {s t : State} {a : Nat} {bytes : List Byte} (h : storeBytes s a bytes = .ok t) :
    KeepsFont s t := by
  obtain ⟨cells, hcells, rfl⟩ := storeBytes_ok h
  refine ⟨rfl, fun hw e he => readCell_writeCells_of_not_mem cells s.mem fun c hc hce => hw ?_⟩
  exact (storeCells_mem hcells c hc).2 (hce ▸ he)

theorem advance_keepsFont (s : State) : KeepsFont s s.advance :=
  (keeps_advance s).keepsFont (by decide) (by decide)

/-- A fault keeps the font, so an instruction that can raise keeps it where its meaning does. -/
theorem conclude_keepsFont {w : Word} {s t : State} {r : Except Raised State} (h : conclude w s r = .next t)
    (hok : ∀ u, r = .ok u → KeepsFont s u) : KeepsFont s t := by
  rcases conclude_cases h with hr | ⟨e, _, rfl⟩
  · exact hok t hr
  · exact (keeps_takeFault e s.pc w s).keepsFont (by decide) (by decide)

theorem cfg_not_written (i : Instr) : Field.cfg ∉ .pc :: writtenFields i := by
  cases i <;> simp [writtenFields]

/-- FX33 and FX55 are the only instructions that write memory (R51). -/
theorem mem_written {i : Instr} (h : Field.mem ∈ .pc :: writtenFields i) :
    (∃ x, i = .ldBX x) ∨ ∃ x, i = .ldMemX x := by
  cases i <;> simp_all [writtenFields]

theorem exec_keepsFont {i : Instr} {s t : State} (h : exec i s = .next t) : KeepsFont s t := by
  by_cases hm : Field.mem ∈ .pc :: writtenFields i
  · rcases mem_written hm with ⟨x, rfl⟩ | ⟨x, rfl⟩
    · exact conclude_keepsFont h fun u hu => (advance_keepsFont s).trans (storeBytes_keepsFont hu)
    · refine conclude_keepsFont h fun u hu => ?_
      obtain ⟨v, hv, rfl⟩ := storeBlock_ok hu
      exact ((advance_keepsFont s).trans (storeBytes_keepsFont hv)).trans
        ((keeps_setIndex v _).keepsFont (by decide) (by decide))
  · exact (exec_keeps h).keepsFont (cfg_not_written i) hm

theorem step_keepsFont {s t : State} (h : step s = .next t) : KeepsFont s t := by
  rcases step_cases h with ⟨_, rfl⟩ | ⟨_, ⟨r, _, rfl⟩ | ⟨_, i, _, _, hi⟩ | ⟨w, _, _, _, rfl⟩⟩
  · exact KeepsFont.refl t
  · exact (keeps_takeFault r s.pc 0 s).keepsFont (by decide) (by decide)
  · exact exec_keepsFont hi
  · exact (keeps_skipUnknown w s).keepsFont (by decide) (by decide)

theorem perform_keepsFont {tr : Transaction} {s t : State} {r : Response} (h : perform tr s = .next (t, r)) :
    KeepsFont s t := by
  cases tr with
  | step => exact step_keepsFont (perform_step h)
  | tick => cases h; exact (keeps_tick s).keepsFont (by decide) (by decide)
  | keyDown k => cases h; exact (keeps_keyDown k s).keepsFont (by decide) (by decide)
  | keyUp k => cases h; exact (keeps_keyUp k s).keepsFont (by decide) (by decide)
  | stop => cases h; exact (keeps_stop s).keepsFont (by decide) (by decide)
  | readClearRedraw => cases h; exact (keeps_readClearRedraw s).keepsFont (by decide) (by decide)
  | snapshot | tone | status => cases h; exact KeepsFont.refl s

/-- Settles O18: every transaction keeps the parameters and the font bytes, and a run composes them. -/
theorem fontRegionIsImmutable : Obligations.FontRegionIsImmutable := by
  intro ts s t h
  have hk : KeepsFont s t := performAll_relates KeepsFont.refl KeepsFont.trans perform_keepsFont h
  exact ⟨hk.1, hk.intact⟩

/-! ### Construction -/

/-- What a LOAD that is accepted builds (R260, R261). -/
theorem load_ok_iff {cfg : Config} {draws : Nat} {bytes : List Byte} {s : State} :
    load cfg draws bytes = .ok s ↔ bytes.length ≤ maxProgramLen ∧
      s = (State.initial cfg draws).setMem (writeCells cfg.font (cellsFrom programBase bytes) []) := by
  unfold load
  split
  · next hlt => simp [Nat.not_le.mpr hlt]
  · next hle => simp [Nat.not_lt.mp hle, State.initial, eq_comm]

/-- A LOAD sets the model's own fields to the parameters and the draws given, with an empty trace (R9, R230). -/
theorem load_model_fields {cfg : Config} {draws : Nat} {bytes : List Byte} {s : State}
    (h : load cfg draws bytes = .ok s) : s.cfg = cfg ∧ s.diags = [] ∧ s.draws = draws := by
  obtain ⟨_, rfl⟩ := load_ok_iff.mp h
  exact ⟨rfl, rfl, rfl⟩

/-- Settles O57: a second LOAD is a LOAD with the old core's parameters and draws (R262). -/
theorem constructionSetsTheModelsOwnFields : Obligations.ConstructionSetsTheModelsOwnFields :=
  ⟨fun _ _ _ _ => load_model_fields, fun _ _ _ => load_model_fields⟩

end Sys2Proof.Machine
end

section
/-!
PROOF. What every instruction answers, said once (spec/10_state.md rules R25 and R34, spec/60_exceptions.md rules R221
to R224): beside the stop of log entry 7 it ends in `conclude`, raises exactly what the table of causes lists, and
where it completes leaves pc as R25 says. The statements on faults and on pc are read off that one lemma.
-/

namespace Sys2Proof.Machine

/-! ### What the operations that can raise can do -/

theorem loadBytes_error_iff {s : State} {n : Nat} {e : Raised} :
    loadBytes s s.index.toNat n = .error e ↔ LoadRaises s n e.cause e.info := by
  constructor
  · exact loadBytes_raises
  · rintro ⟨k, hk, hc, ha⟩
    rw [loadBytes_first_fault hk, ← hc, ← ha]

theorem storeBytes_error_iff {s : State} {bytes : List Byte} {e : Raised} :
    storeBytes s s.index.toNat bytes = .error e ↔ StoreRaises s bytes.length e.cause e.info := by
  constructor
  · exact fun h => storeCells_raises (storeBytes_error h)
  · rintro ⟨k, hk, hk'⟩
    rw [storeBytes, storeCells_first_fault hk]
    rcases hk' with ⟨hr, hc, ha⟩ | ⟨hr, hc, ha⟩
    · rw [if_pos hr, ← hc, ← ha]
    · rw [if_neg hr, ← hc, ← ha]

theorem drawSprite_error_iff {x y : Reg} {n : Nibble} {s : State} {e : Raised} :
    drawSprite x y n s = .error e ↔ LoadRaises s n.toNat e.cause e.info := by
  rw [← loadBytes_error_iff, drawSprite]
  split <;> simp_all

theorem loadBlock_error_iff {x : Reg} {s : State} {e : Raised} :
    loadBlock x s = .error e ↔ LoadRaises s (x.val + 1) e.cause e.info := by
  rw [← loadBytes_error_iff, loadBlock, blockSize]
  split <;> simp_all

theorem storeBlock_error_iff {x : Reg} {s : State} {e : Raised} :
    storeBlock x s = .error e ↔ StoreRaises s (x.val + 1) e.cause e.info := by
  rw [← blockRegs_length s x, ← storeBytes_error_iff, storeBlock]
  split <;> simp_all

theorem held_error_iff {s : State} {x : Reg} {e : Raised} :
    held s (s.getV x) = .error e ↔ KeyRaises s x e.cause e.info := by
  constructor
  · intro h
    obtain ⟨hk, hv, rfl⟩ := held_error h
    exact ⟨hk, hv, rfl, rfl⟩
  · rintro ⟨hk, hv, hc, ha⟩
    rw [held, if_neg (Nat.not_le.mpr hv), hk, ← ha, ← hc]

/-- The flag writes are writes of registers. -/
theorem writeFlagged_setRegs (s : State) (x : Reg) (f g : State → Byte) :
    ∃ v, writeFlagged s x f g = s.setRegs v := by
  obtain ⟨a, b, v, w, _, h⟩ := writeFlagged_writes s x f g
  exact ⟨_, h⟩

theorem drawFlag_setRegs (s : State) (c : Bool) : ∃ v, drawFlag s c = s.setRegs v := by
  unfold drawFlag
  split
  · exact ⟨_, rfl⟩
  · split
    · exact ⟨_, rfl⟩
    · exact ⟨s.v, rfl⟩

/-- DXYN writes registers and the framebuffer (R172). -/
theorem drawSprite_ok {x y : Reg} {n : Nibble} {s t : State} (h : drawSprite x y n s = .ok t) :
    ∃ v fb, t = (s.setRegs v).setFb fb := by
  unfold drawSprite at h
  split at h
  · cases h
  · cases h
    obtain ⟨v, hv⟩ := drawFlag_setRegs s _
    exact ⟨v, _, congrArg (State.setFb · _) hv⟩

/-- FX65 writes registers and I (R155). -/
theorem loadBlock_ok {x : Reg} {s t : State} (h : loadBlock x s = .ok t) :
    ∃ bytes, loadBytes s s.index.toNat (blockSize x) = .ok bytes ∧
      t = (s.setRegs (setBlock 0 bytes s.v)).setIndex (s.index + BitVec.ofNat 16 (blockSize x)) := by
  unfold loadBlock at h
  split at h
  · cases h
  · next bytes hb => cases h; exact ⟨bytes, hb, rfl⟩

/-- A skip after the fetch's advance leaves pc 2 or 4 past the word (R100). -/
theorem advance_skipIf_pc (s : State) (c : Bool) : (s.advance.skipIf c).pc = if c then s.pc + 4 else s.pc + 2 := by
  rw [skipIf_eq]
  cases c
  · rfl
  · simp [BitVec.add_assoc]

theorem zext16_toNat (nnn : Imm12) : (zext16 nnn).toNat = nnn.toNat := by
  simp [zext16]; omega

/-- BNNN cannot overflow 16 bits (R108). -/
theorem zext16_add_byteToWord_toNat (nnn : Imm12) (b : Byte) :
    (zext16 nnn + byteToWord b).toNat = nnn.toNat + b.toNat := by
  have hb : (byteToWord b).toNat = b.toNat := by simp [byteToWord]; omega
  rw [BitVec.toNat_add, zext16_toNat, hb]
  omega

/-! ### The answer of every instruction -/

/-- What instruction `i` that completes leads to: pc as R25 says, a core that runs on or waits, its halt record, and
memory and sp in their ranges. -/
structure Completes (i : Instr) (s t : State) : Prop where
  pc : PcAfter i s t.pc
  run : t.run = s.run ∨ ∃ x, t.run = .waitKey x
  halt : t.halt = s.halt
  mem : Memory.wf s.cfg.font s.mem = true → Memory.wf t.cfg.font t.mem = true
  sp : s.sp.toNat ≤ stackDepth → t.sp.toNat ≤ stackDepth

/-- Instruction `i` ends with `q`: a raise exactly where the table of causes lists one (R221), and otherwise a state it
completes in. -/
structure EndsWith (i : Instr) (s : State) (q : Except Raised State) : Prop where
  answer : exec i s = conclude (encode i) s q
  raises : ∀ e, q = .error e ↔ Raises i s e.cause e.info
  completes : ∀ t, q = .ok t → Completes i s t

theorem EndsWith.of_next {i : Instr} {s t : State} (h : exec i s = .next t) (hr : ∀ c a, ¬Raises i s c a)
    (hc : Completes i s t) : EndsWith i s (.ok t) where
  answer := h
  raises e := ⟨nofun, fun he => absurd he (hr _ _)⟩
  completes _ ht := by cases ht; exact hc

theorem Completes.skip {i : Instr} {s : State} {c : Bool} (hp : PcAfter i s (if c then s.pc + 4 else s.pc + 2)) :
    Completes i s (s.advance.skipIf c) := by
  rw [← advance_skipIf_pc] at hp
  rw [skipIf_eq] at hp ⊢
  exact ⟨hp, .inl rfl, rfl, id, id⟩

theorem Completes.flagged {i : Instr} {s : State} {x : Reg} {f g : State → Byte} (hp : PcAfter i s (s.pc + 2)) :
    Completes i s (writeFlagged s.advance x f g) := by
  obtain ⟨v, hv⟩ := writeFlagged_setRegs s.advance x f g
  rw [hv]
  exact ⟨hp, .inl rfl, rfl, id, id⟩

theorem Completes.stored {i : Instr} {s t : State} {a : Nat} {bytes : List Byte} (hp : PcAfter i s (s.pc + 2))
    (h : storeBytes s.advance a bytes = .ok t) : Completes i s t := by
  have hm := storeBytes_wf h
  obtain ⟨cells, _, rfl⟩ := storeBytes_ok h
  exact ⟨hp, .inl rfl, rfl, hm, id⟩

/-- A raise on a condition, as the stack operations make it. -/
theorem raiseIf_error_iff {p : Prop} [Decidable p] {c : Cause} {a : Nat} {t : State} {e : Raised} :
    (if p then .error { cause := c, info := a } else .ok t : Except Raised State) = .error e ↔
      p ∧ e.cause = c ∧ e.info = a := by
  obtain ⟨c', a'⟩ := e
  split <;> simp_all [eq_comm]

theorem execRet_endsWith {s : State} (h : s.sp.toNat ≤ stackDepth) : ∃ q, EndsWith .ret s q := by
  refine ⟨_, if_neg (Nat.not_lt.mpr h), fun e => ?_, fun t ht => ?_⟩
  · have h0 : s.sp = 0 ↔ s.sp.toNat = 0 := BitVec.toNat_inj.symm
    rw [raiseIf_error_iff, h0, Raises]
  · split at ht
    · cases ht
    · next h0 =>
      cases ht
      refine ⟨rfl, .inl rfl, rfl, id, fun _ => ?_⟩
      simp only [State.drop_sp, State.setPc_sp, State.advance_sp]
      bv_omega

theorem execCall_endsWith {nnn : Imm12} {s : State} (h : s.sp.toNat ≤ stackDepth) : ∃ q, EndsWith (.call nnn) s q := by
  refine ⟨_, if_neg (Nat.not_lt.mpr h), fun e => ?_, fun t ht => ?_⟩
  · rw [raiseIf_error_iff, stackDepth, Raises]
  · split at ht
    · cases ht
    · next h0 =>
      cases ht
      refine ⟨zext16_toNat nnn, .inl rfl, rfl, id, fun _ => ?_⟩
      simp only [State.push_sp, State.setPc_sp, State.advance_sp, stackDepth] at *
      bv_omega

theorem execSys_endsWith (nnn : Imm12) (s : State) : ∃ q, EndsWith (.sys nnn) s q := by
  refine ⟨_, rfl, fun e => ?_, fun t ht => ?_⟩
  · obtain ⟨c, a⟩ := e
    rw [Raises]
    cases s.cfg.sysPolicy <;> simp [eq_comm]
  · split at ht
    · cases ht; exact ⟨rfl, .inl rfl, rfl, id, id⟩
    · cases ht

theorem exec_skp (x : Reg) (s : State) :
    exec (.skp x) s = conclude (encode (.skp x)) s ((held s (s.getV x)).map fun h => s.advance.skipIf h) := by
  rw [exec, execSkp]
  cases held s (s.getV x) <;> rfl

theorem exec_sknp (x : Reg) (s : State) :
    exec (.sknp x) s = conclude (encode (.sknp x)) s ((held s (s.getV x)).map fun h => s.advance.skipIf (!h)) := by
  rw [exec, execSknp]
  cases held s (s.getV x) <;> rfl

/-- A key skip raises where its key index does, and skips as its key and `f` say (R191, R192). -/
theorem keySkip_endsWith {i : Instr} {s : State} {x : Reg} {f : Bool → Bool}
    (hi : exec i s = conclude (encode i) s ((held s (s.getV x)).map fun h => s.advance.skipIf (f h)))
    (hr : ∀ c a, Raises i s c a ↔ KeyRaises s x c a)
    (hp : ∀ h, held s (s.getV x) = .ok h → PcAfter i s (if f h then s.pc + 4 else s.pc + 2)) : ∃ q, EndsWith i s q := by
  refine ⟨_, hi, fun e => ?_, fun t ht => ?_⟩
  · rw [hr, ← held_error_iff]
    cases held s (s.getV x) <;> simp [Except.map]
  · cases hh : held s (s.getV x) with
    | error e => rw [hh] at ht; cases ht
    | ok h => rw [hh] at ht; cases ht; exact .skip (hp h hh)

/-- Every instruction ends so, but for 2NNN and 00EE with an sp that R28 excludes. -/
theorem exec_endsWith {i : Instr} {s : State} (h : s.sp.toNat ≤ stackDepth ∨ (i ≠ .ret ∧ ∀ nnn, i ≠ .call nnn)) :
    ∃ q, EndsWith i s q := by
  cases i with
  | ret => exact execRet_endsWith (h.resolve_right fun hn => hn.1 rfl)
  | call nnn => exact execCall_endsWith (h.resolve_right fun hn => hn.2 nnn rfl)
  | sys nnn => exact execSys_endsWith nnn s
  | jp nnn => exact ⟨_, .of_next rfl (fun _ _ => id) ⟨zext16_toNat nnn, .inl rfl, rfl, id, id⟩⟩
  | jpV0 nnn => exact ⟨_, .of_next rfl (fun _ _ => id) ⟨zext16_add_byteToWord_toNat nnn _, .inl rfl, rfl, id, id⟩⟩
  | seImm | sneImm | seReg | sneReg => exact ⟨_, .of_next rfl (fun _ _ => id) (.skip (by simp [PcAfter]))⟩
  | addReg | subReg | shr | subn | shl => exact ⟨_, .of_next rfl (fun _ _ => id) (.flagged rfl)⟩
  | cls | ldImm | addImm | ldReg | orReg | andReg | xorReg | ldI | rnd | ldXDt | ldDtX | ldStX | addIX | ldFX =>
    exact ⟨_, .of_next rfl (fun _ _ => id) ⟨rfl, .inl rfl, rfl, id, id⟩⟩
  | ldXK x => exact ⟨_, .of_next rfl (fun _ _ => id) ⟨rfl, .inr ⟨x, rfl⟩, rfl, id, id⟩⟩
  | skp x => exact keySkip_endsWith (f := id) (exec_skp x s) (fun _ _ => Iff.rfl) fun h hh => ⟨h, hh, rfl⟩
  | sknp x =>
    exact keySkip_endsWith (f := not) (exec_sknp x s) (fun _ _ => Iff.rfl) fun h hh => ⟨h, hh, by cases h <;> rfl⟩
  | drw x y n =>
    refine ⟨_, rfl, fun e => drawSprite_error_iff, fun t ht => ?_⟩
    obtain ⟨v, fb, rfl⟩ := drawSprite_ok ht
    exact ⟨rfl, .inl rfl, rfl, id, id⟩
  | ldBX x => exact ⟨_, rfl, fun e => storeBytes_error_iff (s := s.advance), fun t ht => .stored rfl ht⟩
  | ldMemX x =>
    refine ⟨_, rfl, fun e => storeBlock_error_iff, fun t ht => ?_⟩
    obtain ⟨u, hu, rfl⟩ := storeBlock_ok ht
    obtain ⟨hpc, hrun, hhalt, hmem, hsp⟩ := Completes.stored (i := .ldMemX x) rfl hu
    exact ⟨hpc, hrun, hhalt, hmem, hsp⟩
  | ldXMem x =>
    refine ⟨_, rfl, fun e => loadBlock_error_iff, fun t ht => ?_⟩
    obtain ⟨bytes, _, rfl⟩ := loadBlock_ok ht
    exact ⟨rfl, .inl rfl, rfl, id, id⟩

/-! ### The stops of the model -/

/-- The states and instructions the model stops in: a stack operation with an sp that R28 excludes (log entry 7). -/
def BadStack (i : Instr) (s : State) : Prop := 16 < s.sp.toNat ∧ (i = .ret ∨ ∃ nnn, i = .call nnn)

theorem exec_of_badStack {i : Instr} {s : State} (h : BadStack i s) : exec i s = .fault .stackPointerOutOfRange := by
  obtain ⟨hsp, rfl | ⟨nnn, rfl⟩⟩ := h <;> exact if_pos hsp

theorem badStack_or_endsWith (i : Instr) (s : State) : BadStack i s ∨ ∃ q, EndsWith i s q := by
  refine or_iff_not_imp_left.mpr fun h => exec_endsWith ?_
  by_cases hsp : s.sp.toNat ≤ stackDepth
  · exact .inl hsp
  · exact .inr <| (not_or.mp fun hi => h ⟨Nat.not_le.mp hsp, hi⟩).imp_right not_exists.mp

/-- What ends in `conclude` answers a next state. -/
theorem conclude_next (w : Word) (s : State) (q : Except Raised State) : ∃ t, conclude w s q = .next t := by
  cases q with
  | ok t => exact ⟨t, rfl⟩
  | error e => exact ⟨_, rfl⟩

theorem EndsWith.next {i : Instr} {s : State} {q : Except Raised State} (h : EndsWith i s q) :
    ∃ t, exec i s = .next t := by
  rw [h.answer]
  exact conclude_next _ s q

/-- Settles O14: an instruction that does not stop ends in `conclude`, which answers a next state. -/
theorem onlyABadStackPointerStopsTheMachine : Obligations.OnlyABadStackPointerStopsTheMachine := by
  intro i s
  change _ ∧ (_ ↔ BadStack i s)
  rcases badStack_or_endsWith i s with hb | ⟨q, hq⟩
  · simp [exec_of_badStack hb, hb]
  · obtain ⟨t, ht⟩ := hq.next
    have hb : ¬BadStack i s := fun hb => by simp [exec_of_badStack hb] at ht
    simp [ht, hb]

/-! ### The faults of the table (R221) -/

/-- An instruction that answers a next state has raised what the table lists, or has completed. -/
theorem exec_cases {i : Instr} {s t : State} (h : exec i s = .next t) :
    (∃ e, Raises i s e.cause e.info ∧ t = takeFault e s.pc (encode i) s) ∨ Completes i s t := by
  rcases badStack_or_endsWith i s with hb | ⟨q, hq⟩
  · simp [exec_of_badStack hb] at h
  · rw [hq.answer] at h
    rcases conclude_cases h with hok | ⟨e, he, rfl⟩
    · exact .inr (hq.completes t hok)
    · exact .inl ⟨e, (hq.raises e).mp he, rfl⟩

theorem FirstReadFault.add_eq {cfg : Config} {a n k : Nat} (h : FirstReadFault cfg a n k) : a + k = max a 0x1000 := by
  obtain ⟨_, ⟨hp, hk⟩, hmin⟩ := h
  rcases k with _ | k
  · simpa using hk
  · have := not_and.mp (hmin k (by omega)) hp
    omega

/-- The parameter that raises `c` has the value the table of R221 names, and `a` is a halt_addr in the range of `c`. -/
def AddrLegal (cfg : Config) (c : Cause) (a : Nat) : Prop :=
  a < 65536 ∧ ∀ pc word, recordLegal cfg c { cause := some c, pc := pc, word := word, addr := BitVec.ofNat 16 a } = true

theorem FirstReadFault.addrLegal {s : State} {n k : Nat} (h : FirstReadFault s.cfg s.index.toNat n k) :
    AddrLegal s.cfg .memRange (s.index.toNat + k) := by
  have ha : s.index.toNat + k < 65536 := by rw [h.add_eq]; omega
  obtain ⟨_, ⟨hp, hk⟩, _⟩ := h
  exact ⟨ha, fun _ _ => by simp [recordLegal, memSize, Nat.mod_eq_of_lt ha, hp, hk]⟩

theorem LoadRaises.addrLegal {s : State} {n : Nat} {c : Cause} {a : Nat} (h : LoadRaises s n c a) :
    c = .memRange ∧ AddrLegal s.cfg c a := by
  obtain ⟨k, hk, rfl, rfl⟩ := h
  exact ⟨rfl, hk.addrLegal⟩

theorem StoreRaises.addrLegal {s : State} {n : Nat} {c : Cause} {a : Nat} (h : StoreRaises s n c a) :
    (c = .memRange ∨ c = .fontWrite) ∧ AddrLegal s.cfg c a := by
  obtain ⟨k, ⟨hk, hfail, hmin⟩, ⟨hr, rfl, rfl⟩ | ⟨hr, rfl, rfl⟩⟩ := h
  · exact ⟨.inl rfl, FirstReadFault.addrLegal ⟨hk, hr, fun j hj => (hmin j hj).1⟩⟩
  · obtain ⟨hw, hl⟩ := hfail.resolve_left hr
    refine ⟨.inr rfl, by omega, fun _ _ => ?_⟩
    have hmod : landing s.cfg (s.index.toNat + k) % 65536 = landing s.cfg (s.index.toNat + k) := by omega
    simp [recordLegal, fontSize, hw, hmod]
    omega

theorem KeyRaises.addrLegal {s : State} {x : Reg} {c : Cause} {a : Nat} (h : KeyRaises s x c a) :
    c = .keyRange ∧ AddrLegal s.cfg c a := by
  obtain ⟨hk, hv, rfl, rfl⟩ := h
  have ha : (s.getV x).toNat < 256 := (s.getV x).isLt
  have hmod : (s.getV x).toNat % 65536 = (s.getV x).toNat := by omega
  refine ⟨rfl, by omega, fun _ _ => ?_⟩
  simp [recordLegal, hk, hmod]
  omega

/-- The table of R221 lists a cause for an instruction only among its causes, under its parameter, with an address in
its range. -/
theorem Raises.legal {i : Instr} {s : State} {c : Cause} {a : Nat} (h : Raises i s c a) :
    c ∈ raisedBy i ∧ AddrLegal s.cfg c a := by
  cases i with
  | ret | call => obtain ⟨_, rfl, rfl⟩ := h; exact ⟨List.mem_singleton_self _, by decide, fun _ _ => rfl⟩
  | sys =>
    obtain ⟨hp, rfl, rfl⟩ := h
    exact ⟨List.mem_singleton_self _, by decide, fun _ _ => by simp [recordLegal, hp]⟩
  | drw | ldXMem => exact (LoadRaises.addrLegal h).imp_left List.mem_singleton.mpr
  | skp | sknp => exact (KeyRaises.addrLegal h).imp_left List.mem_singleton.mpr
  | ldBX | ldMemX => exact (StoreRaises.addrLegal h).imp_left List.mem_pair.mpr
  | _ => exact h.elim

theorem fetchRange_not_raised (i : Instr) : Cause.fetchRange ∉ raisedBy i := by
  cases i <;> simp [raisedBy]

/-- A raise of an instruction, in the words of Safety.lean. -/
theorem Raises.takeFault_eq {i : Instr} {s : State} {e : Raised} (h : Raises i s e.cause e.info) (w : Word) :
    takeFault e s.pc w s = haltedBy s e.cause w e.info :=
  takeFault_eq_haltedBy s (fun hc => fetchRange_not_raised i (hc ▸ h.legal.1)) w e.info

theorem Completes.not_halted {i : Instr} {s t : State} (h : Completes i s t) (hs : s.run = .ready) (c : Cause) :
    t.run ≠ .halted c := by
  rcases h.run with hr | ⟨x, hr⟩ <;> simp [hr, hs]

/-- An instruction that halts a Ready core has raised what the table lists. -/
theorem exec_halted {i : Instr} {s t : State} {c : Cause} (hs : s.run = .ready) (h : exec i s = .next t)
    (ht : t.run = .halted c) : ∃ a, Raises i s c a ∧ t = haltedBy s c (encode i) a := by
  rcases exec_cases h with ⟨e, he, rfl⟩ | hc
  · obtain rfl : e.cause = c := RunState.halted.inj ht
    exact ⟨e.info, he, he.takeFault_eq _⟩
  · exact absurd ht (hc.not_halted hs c)

/-- What the table lists for an instruction, the instruction raises (R221, R222). -/
theorem Raises.exec_eq {i : Instr} {s : State} {c : Cause} {a : Nat} (h : Raises i s c a) :
    exec i s = .next (haltedBy s c (encode i) a) := by
  have hb : ¬BadStack i s := by
    rintro ⟨hsp, rfl | ⟨nnn, rfl⟩⟩ <;> have := h.1 <;> omega
  obtain ⟨q, hq⟩ := (badStack_or_endsWith i s).resolve_left hb
  rw [hq.answer, (hq.raises ⟨c, a⟩).mpr h, conclude_error, Raises.takeFault_eq (i := i) h]

/-- Settles O12: the halted state is the one of a listed cause, whose record is legal. -/
theorem faultsAreThoseTheTableLists : Obligations.FaultsAreThoseTheTableLists := by
  intro i s t c hs h ht
  obtain ⟨a, ha, rfl⟩ := exec_halted hs h ht
  obtain ⟨hc, _, hl⟩ := ha.legal
  exact ⟨hc, hl _ _⟩

/-- Settles O56: an instruction raises exactly what the table lists, and the address recorded fits halt_addr. -/
theorem faultsAreRaisedExactlyAsTheTableSays : Obligations.FaultsAreRaisedExactlyAsTheTableSays := by
  refine fun i s c hs => ⟨fun t h ht => ?_, fun a ha => ha.exec_eq⟩
  obtain ⟨a, ha, rfl⟩ := exec_halted hs h ht
  have haddr : (haltedBy s c (encode i) a).halt.addr.toNat = a := Nat.mod_eq_of_lt ha.legal.2.1
  rwa [haddr]

/-! ### Where pc is left (R25) -/

/-- Settles O21: a raise restores pc, and an instruction that completes leaves it as R25 says. -/
theorem pcAfterEveryInstruction : Obligations.PcAfterEveryInstruction := by
  intro i s t hs h
  rcases exec_cases h with ⟨e, _, rfl⟩ | hc
  · exact ⟨fun _ => rfl, nofun⟩
  · refine ⟨fun ht => ?_, fun _ => hc.pc⟩
    obtain ⟨c, ht⟩ := isHalted_iff.mp ht
    exact absurd ht (hc.not_halted hs c)

end Sys2Proof.Machine
end

section
/-!
PROOF. The invariant of the core (spec/10_state.md rules R28 and R34, spec/20_memory.md rule R50): a step keeps it, every
transaction is answered and keeps it, and so does every run of transactions.
-/

namespace Sys2Proof.Machine

/-! ### The parts of the invariant -/

theorem haltCoherent_of_running {s : State} (h : ∀ c, s.run ≠ .halted c) :
    haltCoherent s = true ↔ s.halt = HaltRecord.empty := by
  unfold haltCoherent
  split
  · next c hc => exact absurd hc (h c)
  · exact beq_iff_eq
  · exact beq_iff_eq

/-- A fault with a legal record keeps the invariant: it leaves memory and sp alone (R222). -/
theorem takeFault_inv {s : State} (hs : Inv s) {e : Raised} {a w : Word}
    (h : recordLegal s.cfg e.cause (takeFault e a w s).halt = true) : Inv (takeFault e a w s) :=
  ⟨hs.1, hs.2.1, h⟩

/-- A fetch fault records what R62 and R221 allow. -/
theorem fetch_error_legal {s : State} {r : Raised} (h : fetch s = .error r) :
    recordLegal s.cfg r.cause (takeFault r s.pc 0 s).halt = true := by
  obtain ⟨hp, hc, ⟨hpc, hi⟩ | ⟨hpc, hi⟩⟩ := fetch_error h
  · simp [recordLegal, hc, hp, hi, hpc]
  · have hpc' : s.pc = 0xFFF := BitVec.eq_of_toNat_eq hpc
    simp [recordLegal, hc, hp, hi, hpc', memSize]

/-- An instruction that completes in a Ready core keeps the invariant. -/
theorem Completes.inv {i : Instr} {s t : State} (h : Completes i s t) (hr : s.run = .ready) (hs : Inv s) : Inv t := by
  obtain ⟨hmem, hsp, hhalt⟩ := hs
  have h0 : s.halt = HaltRecord.empty := (haltCoherent_of_running (by simp [hr])).mp hhalt
  exact ⟨h.mem hmem, h.sp hsp, (haltCoherent_of_running (h.not_halted hr)).mpr (h.halt.trans h0)⟩

theorem exec_inv {i : Instr} {s t : State} (hr : s.run = .ready) (hs : Inv s) (h : exec i s = .next t) : Inv t := by
  rcases exec_cases h with ⟨e, he, rfl⟩ | hc
  · exact takeFault_inv hs (he.legal.2.2 _ _)
  · exact hc.inv hr hs

/-! ### Steps -/

/-- Settles O15: a step is a wait, a fetch fault, an instruction or an UNKNOWN word, and each keeps the invariant. -/
theorem stepKeepsTheInvariant : Obligations.StepKeepsTheInvariant := by
  intro s t hs h
  rcases step_cases h with ⟨_, rfl⟩ | ⟨hr, ⟨r, hf, rfl⟩ | ⟨_, i, _, _, hi⟩ | ⟨w, _, _, _, rfl⟩⟩
  · exact hs
  · exact takeFault_inv hs (fetch_error_legal hf)
  · exact exec_inv hr hs hi
  · exact hs

/-- With sp in its range no instruction stops the machine. -/
theorem exec_answers (i : Instr) {s : State} (h : s.sp.toNat ≤ stackDepth) : ∃ t, exec i s = .next t := by
  obtain ⟨q, hq⟩ := exec_endsWith (i := i) (.inl h)
  exact hq.next

theorem step_answers {s : State} (h : s.sp.toNat ≤ stackDepth) : ∃ t, step s = .next t := by
  by_cases hr : s.run = .ready
  · rw [step_ready hr, cycle]
    split
    · next w _ =>
      rw [runWord]
      split
      · next i _ => exact exec_answers i h
      · exact ⟨_, rfl⟩
    · exact ⟨_, rfl⟩
  · exact ⟨s, step_not_ready hr⟩

/-! ### The other transactions -/

theorem tick_inv {s : State} (hs : Inv s) : Inv (tick s) := by
  unfold tick
  split
  · exact hs
  · exact hs

theorem keyDown_inv {s : State} (k : Key) (hs : Inv s) : Inv (keyDown k s) := by
  unfold keyDown
  split
  · exact hs
  · exact hs
  · next x hr =>
    obtain ⟨hmem, hsp, hhalt⟩ := hs
    have h0 : s.halt = HaltRecord.empty := (haltCoherent_of_running (by simp [hr])).mp hhalt
    exact ⟨hmem, hsp, (haltCoherent_of_running (by simp)).mpr h0⟩

theorem keyUp_inv {s : State} (k : Key) (hs : Inv s) : Inv (keyUp k s) := by
  unfold keyUp
  split
  · exact hs
  · exact hs

theorem stop_inv {s : State} (hs : Inv s) : Inv (stop s) := by
  unfold stop
  split
  · exact hs
  · exact takeFault_inv hs rfl

/-- From a state that meets the invariant every transaction is answered, and keeps it. -/
theorem perform_answers (tr : Transaction) {s : State} (hs : Inv s) : ∃ t r, perform tr s = .next (t, r) ∧ Inv t := by
  cases tr with
  | step =>
    obtain ⟨t, ht⟩ := step_answers hs.2.1
    exact ⟨t, _, by rw [perform, ht], stepKeepsTheInvariant s t hs ht⟩
  | tick => exact ⟨_, _, rfl, tick_inv hs⟩
  | keyDown k => exact ⟨_, _, rfl, keyDown_inv k hs⟩
  | keyUp k => exact ⟨_, _, rfl, keyUp_inv k hs⟩
  | stop => exact ⟨_, _, rfl, stop_inv hs⟩
  | snapshot | readClearRedraw | tone | status => exact ⟨_, _, rfl, hs⟩

/-- Settles O16, by induction over the run: each transaction is answered and hands the invariant on. -/
theorem noRunOfTransactionsStops : Obligations.NoRunOfTransactionsStops := by
  intro ts
  induction ts with
  | nil => exact fun s hs => ⟨s, rfl, hs⟩
  | cons tr ts ih =>
    intro s hs
    obtain ⟨t, r, ht, hinv⟩ := perform_answers tr hs
    obtain ⟨u, hu, hu'⟩ := ih t hinv
    exact ⟨u, by rw [performAll, ht]; exact hu, hu'⟩

end Sys2Proof.Machine
end

section
/-!
PROOF. The general registers an instruction does not write, and those it does not read (spec/10_state.md rule R22).
-/

namespace Sys2Proof.Machine

/-! ### The registers an instruction keeps -/

theorem keepsRegs_setV (s : State) (x : Reg) (b : Byte) : KeepsRegsBut [x] s (s.setV x b) := fun r hr => by
  simp [List.mem_singleton.not.mp hr]

/-- The registers of the block V0 to V[x] (R154, R155). -/
theorem not_mem_block {r x : Reg} : (r ∉ (List.finRange 16).filter fun q => q ≤ x) ↔ x.val < r.val := by
  simp [List.mem_filter]

/-- A register past the block keeps its value (R155). -/
theorem setBlock_get_of_le {bytes : List Byte} {r : Reg} (h : bytes.length ≤ r.val) (v : Vector Byte 16) :
    (setBlock 0 bytes v).get r = v.get r := by
  rw [setBlock_get, dif_neg (by omega)]

theorem loadBlock_keepsRegs {x : Reg} {s t : State} (h : loadBlock x s = .ok t) :
    KeepsRegsBut (destRegs (.ldXMem x)) s t := fun r hr => by
  obtain ⟨bytes, hb, rfl⟩ := loadBlock_ok h
  have hlen : bytes.length = x.val + 1 := loadBytes_length s hb
  exact setBlock_get_of_le (by have := not_mem_block.mp hr; omega) s.v

theorem drawSprite_keepsRegs {x y : Reg} {n : Nibble} {s t : State} (h : drawSprite x y n s = .ok t) :
    KeepsRegsBut [VF] s t := by
  unfold drawSprite at h
  split at h
  · cases h
  · cases h; exact (keeps_drawFlag s _).2

theorem conclude_keepsRegs {rs : List Reg} {w : Word} {s t : State} {q : Except Raised State}
    (h : conclude w s q = .next t) (hok : ∀ u, q = .ok u → KeepsRegsBut rs s u) : KeepsRegsBut rs s t := by
  rcases conclude_cases h with hr | ⟨e, _, rfl⟩
  · exact hok t hr
  · exact fun _ _ => rfl

/-- Of the general registers, an instruction changes its destinations only (R22). -/
theorem exec_keepsRegs {i : Instr} {s t : State} (h : exec i s = .next t) : KeepsRegsBut (destRegs i) s t := by
  cases i with
  | ldImm | addImm | ldReg | orReg | andReg | xorReg | ldXDt => cases h; exact keepsRegs_setV s.advance _ _
  | rnd => cases h; exact keepsRegs_setV s.advance.drawn _ _
  | addReg | subReg | shr | subn | shl => cases h; exact (keeps_writeFlagged s.advance _ _ _).2
  | drw => exact conclude_keepsRegs h fun u hu => drawSprite_keepsRegs (s := s.advance) hu
  | ldXMem => exact conclude_keepsRegs h fun u hu => loadBlock_keepsRegs (s := s.advance) hu
  | _ => exact (exec_keeps h).regs (by simp [writtenFields]) _

/-- Settles O19: the frame of every element and of every register. -/
theorem eachInstructionKeepsWhatItDoesNotWrite : Obligations.EachInstructionKeepsWhatItDoesNotWrite :=
  fun _ _ _ h => ⟨exec_keeps h, exec_keepsRegs h⟩

/-! ### Another value in a register that is not read

Each operation on the state with another value in `r` gives what it gives without, with that value in `r`. -/

theorem State.getV_setV_of_ne {r x : Reg} (h : r ≠ x) (s : State) (b : Byte) : (s.setV r b).getV x = s.getV x := by
  simp [h.symm]

theorem writeFlagged_setV {r x : Reg} (hx : r ≠ x) (hF : r ≠ VF) {s : State} {b : Byte} {f f' g g' : State → Byte}
    (hf : ∀ u : State, f' (u.setV r b) = f u) (hg : ∀ u : State, g' (u.setV r b) = g u) :
    writeFlagged (s.setV r b) x f' g' = (writeFlagged s x f g).setV r b := by
  cases h : s.cfg.aluOrder with
  | sequential =>
    rw [writeFlagged_sequential h, writeFlagged_sequential (s := s.setV r b) h, hf, State.setV_comm s hF, hg,
      State.setV_comm _ hx]
  | flagLast =>
    rw [writeFlagged_flagLast h, writeFlagged_flagLast (s := s.setV r b) h, hf, hg, State.setV_comm s hx,
      State.setV_comm _ hF]

theorem skipIf_setV (s : State) (r : Reg) (b : Byte) (c : Bool) : (s.setV r b).skipIf c = (s.skipIf c).setV r b := by
  cases c <;> rfl

theorem drawFlag_setV {r : Reg} (hF : r ≠ VF) (s : State) (b : Byte) (c : Bool) :
    drawFlag (s.setV r b) c = (drawFlag s c).setV r b := by
  simp only [drawFlag, State.setV_cfg, State.setV_comm s hF]
  split
  · rfl
  · split <;> rfl

theorem drawSprite_setV {r x y : Reg} {s : State} {b : Byte} (hx : (s.setV r b).getV x = s.getV x)
    (hy : (s.setV r b).getV y = s.getV y) (hF : r ≠ VF) (n : Nibble) :
    drawSprite x y n (s.setV r b) = (drawSprite x y n s).map (·.setV r b) := by
  have hload := loadBytes_congr (s := s) (t := s.setV r b) rfl fun _ => rfl
  simp only [drawSprite, hload, State.setV_index, State.setV_fb, hx, hy, drawFlag_setV hF]
  cases loadBytes s s.index.toNat n.toNat <;> rfl

theorem storeBytes_setV (s : State) (r : Reg) (b : Byte) (a : Nat) (bytes : List Byte) :
    storeBytes (s.setV r b) a bytes = (storeBytes s a bytes).map (·.setV r b) := by
  simp only [storeBytes, State.setV_cfg]
  cases storeCells s.cfg a bytes <;> rfl

theorem blockRegs_setV {r x : Reg} (h : x.val < r.val) (s : State) (b : Byte) :
    blockRegs (s.setV r b) x = blockRegs s x := by
  refine List.ext_getElem (by simp [blockRegs_length]) fun k h1 h2 => ?_
  rw [blockRegs_length] at h1
  rw [blockRegs_getElem, blockRegs_getElem, State.getV_setV_of_ne (Fin.ne_of_val_ne (by simp only; omega))]

theorem storeBlock_setV {r x : Reg} (h : x.val < r.val) (s : State) (b : Byte) :
    storeBlock x (s.setV r b) = (storeBlock x s).map (·.setV r b) := by
  simp only [storeBlock, blockRegs_setV h, storeBytes_setV, State.setV_index]
  cases storeBytes s s.index.toNat (blockRegs s x) <;> rfl

/-- A block written beside a register. -/
theorem setBlock_set {bytes : List Byte} {r : Reg} (h : bytes.length ≤ r.val) (v : Vector Byte 16) (b : Byte) :
    setBlock 0 bytes (v.set r.val b) = (setBlock 0 bytes v).set r.val b := by
  ext k hk
  have hget := fun u => setBlock_get bytes 0 u ⟨k, hk⟩
  simp only [Vector.get_eq_getElem] at hget
  rw [Vector.getElem_set, hget, hget, Vector.getElem_set]
  by_cases hkr : r.val = k
  · rw [dif_neg (by omega), if_pos hkr, if_pos hkr]
  · simp only [if_neg hkr]

theorem loadBlock_setV {r x : Reg} (h : x.val < r.val) (s : State) (b : Byte) :
    loadBlock x (s.setV r b) = (loadBlock x s).map (·.setV r b) := by
  have hload := loadBytes_congr (s := s) (t := s.setV r b) rfl fun _ => rfl
  simp only [loadBlock, hload, State.setV_index, State.setV_v]
  cases hb : loadBytes s s.index.toNat (blockSize x) with
  | error e => rfl
  | ok bytes =>
    have hlen : bytes.length = x.val + 1 := loadBytes_length s hb
    simp only [setBlock_set (show bytes.length ≤ r.val by omega)]
    rfl

/-- The end of an instruction whose effect does not read `r`. -/
theorem conclude_setV {w : Word} {s t : State} {q q' : Except Raised State} {r : Reg} {b : Byte}
    (h : conclude w s q = .next t) (hq : q' = q.map (·.setV r b)) :
    conclude w (s.setV r b) q' = .next (t.setV r b) := by
  subst hq
  cases q <;> cases h <;> rfl

/-- A register write of an instruction that does not read `r`. -/
theorem next_setV {r x : Reg} (hx : r ≠ x) (s : State) (b : Byte) {c c' : Byte} (hc : c' = c) :
    (.next ((s.setV r b).setV x c') : Result) = .next ((s.setV x c).setV r b) := by
  rw [hc, State.setV_comm s hx]

theorem keySkip_setV {w : Word} {s t : State} {r x : Reg} {b : Byte} {f : Bool → Bool}
    (hx : (s.setV r b).getV x = s.getV x)
    (h : conclude w s ((held s (s.getV x)).map fun k => s.advance.skipIf (f k)) = .next t) :
    conclude w (s.setV r b) ((held (s.setV r b) ((s.setV r b).getV x)).map fun k => (s.setV r b).advance.skipIf (f k)) =
      .next (t.setV r b) := by
  refine conclude_setV h ?_
  have hheld : held (s.setV r b) (s.getV x) = held s (s.getV x) := rfl
  rw [hx, hheld]
  cases held s (s.getV x) with
  | error e => rfl
  | ok k => exact congrArg Except.ok (skipIf_setV s.advance r b (f k))

theorem execRet_setV {s t : State} (r : Reg) (b : Byte) (h : execRet s = .next t) :
    execRet (s.setV r b) = .next (t.setV r b) := by
  unfold execRet at h ⊢
  split at h
  · cases h
  · next hsp =>
    refine (if_neg hsp).trans (conclude_setV h ?_)
    rw [apply_ite (Except.map _)]
    rfl

theorem execCall_setV {nnn : Imm12} {s t : State} (r : Reg) (b : Byte) (h : execCall nnn s = .next t) :
    execCall nnn (s.setV r b) = .next (t.setV r b) := by
  unfold execCall at h ⊢
  split at h
  · cases h
  · next hsp =>
    refine (if_neg hsp).trans (conclude_setV h ?_)
    rw [apply_ite (Except.map _)]
    rfl

theorem execSys_setV {nnn : Imm12} {s t : State} (r : Reg) (b : Byte) (h : execSys nnn s = .next t) :
    execSys nnn (s.setV r b) = .next (t.setV r b) := by
  refine conclude_setV h ?_
  simp only [State.setV_cfg]
  split <;> rfl

/-- Settles O20: every operation an instruction is built from leaves a register alone that it does not read or write. -/
theorem unreadRegistersHaveNoInfluence : Obligations.UnreadRegistersHaveNoInfluence := by
  intro i s t r b hs hd h
  have src : ∀ x ∈ sourceRegs s.cfg i, ∀ u : State, (u.setV r b).getV x = u.getV x := fun x hx u =>
    State.getV_setV_of_ne (ne_of_mem_of_not_mem hx hs).symm u b
  have dst : ∀ x ∈ destRegs i, r ≠ x := fun x hx => (ne_of_mem_of_not_mem hx hd).symm
  cases i with
    simp only [sourceRegs, destRegs, List.forall_mem_cons, List.not_mem_nil, false_imp_iff, implies_true, and_true]
      at src dst
  | cls | jp | ldI | ldXK => cases h; rfl
  | ret => exact execRet_setV r b h
  | call => exact execCall_setV r b h
  | sys => exact execSys_setV r b h
  | ldImm | ldXDt => cases h; exact next_setV dst s.advance b rfl
  | addImm | ldReg | orReg | andReg | xorReg => cases h; exact next_setV dst s.advance b (by simp only [src])
  | rnd => cases h; exact next_setV dst s.advance.drawn b rfl
  | addReg | subReg | subn =>
    cases h
    exact congrArg Host.Outcome.next
      (writeFlagged_setV (s := s.advance) dst.1 dst.2 (fun u => by simp only [src]) fun u => by simp only [src])
  | shr | shl =>
    cases h
    exact congrArg Host.Outcome.next
      (writeFlagged_setV (s := s.advance) dst.1 dst.2 (fun u => by simp only [State.setV_cfg, src])
        fun u => by simp only [State.setV_cfg, src])
  | seImm | sneImm | seReg | sneReg =>
    cases h
    simp only [exec, execSeImm, execSneImm, execSeReg, execSneReg, src]
    exact congrArg Host.Outcome.next (skipIf_setV s.advance r b _)
  | jpV0 | ldDtX | ldStX | addIX | ldFX =>
    cases h
    simp only [exec, execJpV0, execLdDtX, execLdStX, execAddIX, execLdFX, src]
    rfl
  | skp x => rw [exec_skp] at h ⊢; exact keySkip_setV (f := id) (src s) h
  | sknp x => rw [exec_sknp] at h ⊢; exact keySkip_setV (f := not) (src s) h
  | drw x y n => exact conclude_setV h (drawSprite_setV (src.1 s.advance) (src.2 s.advance) dst n)
  | ldBX x =>
    refine conclude_setV h ?_
    rw [src]
    exact storeBytes_setV s.advance r b _ _
  | ldMemX x => exact conclude_setV h (storeBlock_setV (not_mem_block.mp hs) s.advance b)
  | ldXMem x => exact conclude_setV h (loadBlock_setV (not_mem_block.mp hd) s.advance b)

end Sys2Proof.Machine
end

section
/-!
PROOF. The state after construction (spec/10_state.md rule R39, spec/70_reset_and_hazards.md rules R260 to R262).
-/

namespace Sys2Proof.Machine

/-! ### Memory after a LOAD -/

theorem background_of_lt {font : Font} {a : Nat} (h : a < 80) : background font a = font[a] := by
  simp [background, h]

theorem background_of_le {font : Font} {a : Nat} (h : 80 ≤ a) : background font a = 0 := by
  simp [background, h]

/-- The cells of an image that fits exist (R261). -/
theorem image_lt_memSize {bytes : List Byte} (h : bytes.length ≤ maxProgramLen) :
    ∀ c ∈ cellsFrom programBase bytes, c.1 < memSize := fun c hc => by
  obtain ⟨k, hk, rfl⟩ := mem_cellsFrom.mp hc
  simp only [programBase, memSize, maxProgramLen] at *
  omega

/-- Outside the image memory reads as with an empty one (R39, R260). -/
theorem readCell_image_outside {font : Font} {bytes : List Byte} {a : Nat}
    (h : a < programBase ∨ programBase + bytes.length ≤ a) :
    readCell font a (writeCells font (cellsFrom programBase bytes) []) = background font a := by
  refine readCell_writeCells_of_not_mem _ [] fun c hc => ?_
  obtain ⟨k, hk, rfl⟩ := mem_cellsFrom.mp hc
  simp only
  omega

/-- A LOAD that is accepted builds a state that meets the invariant. -/
theorem load_inv {cfg : Config} {draws : Nat} {bytes : List Byte} {s : State} (h : load cfg draws bytes = .ok s) :
    Inv s := by
  obtain ⟨hlen, rfl⟩ := load_ok_iff.mp h
  exact ⟨writeCells_wf _ (image_lt_memSize hlen) rfl, Nat.zero_le _, rfl⟩

/-- Settles O54: the image is what the stores of LOAD wrote, and the rest is as with an empty image. -/
theorem loadBuildsTheState : Obligations.LoadBuildsTheState := by
  refine fun cfg draws bytes => ⟨fun h => if_pos h, fun h => ?_⟩
  have hload := (load_ok_iff (cfg := cfg) (draws := draws)).mpr ⟨h, rfl⟩
  refine ⟨_, hload, load_inv hload, fun a ha => ?_, fun a h1 h2 => ?_, fun k hk => ?_, fun a ha => ?_, fun _ => rfl,
    rfl, rfl, rfl, fun k => ?_, rfl, rfl, pixel_blankFb, rfl, fun k => ?_, rfl, rfl⟩
  · exact (readCell_image_outside (.inl (by simp only [programBase]; omega))).trans (background_of_lt ha)
  · exact (readCell_image_outside (.inl h2)).trans (background_of_le h1)
  · exact readCell_writeCells_cellsFrom hk (by simp only [memSize]; omega) rfl
  · exact (readCell_image_outside (.inr ha)).trans (background_of_le (by omega))
  · simp only [State.stackAt, State.setMem_stack, State.initial, Vector.getElem?_replicate]
    split <;> rfl
  · simp [State.initial, Vector.get_eq_getElem]

/-! ### Reset -/

theorem load_reset : load defaultConfig 0 [] = .ok State.reset := rfl

/-- Settles O55: construction with an empty image writes no cell. -/
theorem resetIsConstructionWithDefaults : Obligations.ResetIsConstructionWithDefaults := by
  refine ⟨load_reset, rfl, rfl, rfl, rfl, fun r => ?_, rfl, rfl⟩
  simp [State.getV, State.reset, State.initial, defaultConfig, Vector.get_eq_getElem]

/-- Settles O17: reset is a LOAD. -/
theorem resetMeetsTheInvariant : Obligations.ResetMeetsTheInvariant := load_inv load_reset

end Sys2Proof.Machine
end

section
/-!
PROOF. The decoder reads back what the encoder built (spec/30_encoding.md rules R58, R84, R89): each word the encoder
builds shows its class and its fields, and the decoder dispatches on them.
-/

namespace Sys2Proof

/-! ### The dispatch on the class of a built word (R84) -/

/-- A class 0 word other than those of 00E0 and 00EE is a 0NNN (R85). -/
theorem decodeClass0_wordNNN {nnn : Imm12} (h1 : nnn ≠ 0x0E0#12) (h2 : nnn ≠ 0x0EE#12) :
    decodeClass0 (wordNNN 0x0 nnn) = .sys nnn := by
  have hcls : wordNNN 0x0 nnn ≠ 0x00E0#16 := fun h =>
    h1 ((fieldNNN_wordNNN 0x0 nnn).symm.trans (congrArg fieldNNN h))
  have hret : wordNNN 0x0 nnn ≠ 0x00EE#16 := fun h =>
    h2 ((fieldNNN_wordNNN 0x0 nnn).symm.trans (congrArg fieldNNN h))
  rw [decodeClass0, if_neg hcls, if_neg hret, fieldNNN_wordNNN]

theorem decodeWord_class0 (strict : Bool) (nnn : Imm12) :
    decodeWord strict (wordNNN 0x0 nnn) = .ok (decodeClass0 (wordNNN 0x0 nnn)) := by
  simp [decodeWord]

theorem decodeWord_class8 (strict : Bool) (x y : Reg) (n : Nibble) :
    decodeWord strict (wordXYN 0x8 x y n) = decodeClass8 (wordXYN 0x8 x y n) := by
  simp [decodeWord]

theorem decodeWord_classE (strict : Bool) (x : Reg) (nn : Byte) :
    decodeWord strict (wordXNN 0xE x nn) = decodeClassE (wordXNN 0xE x nn) := by
  simp [decodeWord]

theorem decodeWord_classF (strict : Bool) (x : Reg) (nn : Byte) :
    decodeWord strict (wordXNN 0xF x nn) = decodeClassF (wordXNN 0xF x nn) := by
  simp [decodeWord]

/-! ### Decoding an encoded instruction -/

/-- The decoder inverts the encoder: the words of the classes without a secondary opcode, then those of class 8, E and
F, which the secondary opcode tells apart. -/
theorem decodeWord_encode (strict : Bool) {i : Instr} (h : WellFormed i) : decodeWord strict (encode i) = .ok i := by
  cases i with
  | cls | ret => rfl
  | sys nnn =>
    obtain ⟨h1, h2⟩ : nnn ≠ 0x0E0#12 ∧ nnn ≠ 0x0EE#12 := by simpa [WellFormed, Instr.wellFormed] using h
    rw [encode, decodeWord_class0, decodeClass0_wordNNN h1 h2]
  | jp | call | ldI | jpV0 | seImm | sneImm | ldImm | addImm | rnd | seReg | sneReg | drw => simp [encode, decodeWord]
  | ldReg | orReg | andReg | xorReg | addReg | subReg | shr | subn | shl =>
    rw [encode, decodeWord_class8]; simp [decodeClass8]
  | skp | sknp => rw [encode, decodeWord_classE]; simp [decodeClassE]
  | ldXDt | ldXK | ldDtX | ldStX | addIX | ldFX | ldBX | ldMemX | ldXMem =>
    rw [encode, decodeWord_classF]; simp [decodeClassF]

/-- A word in memory order decodes to what the word does (R58, R80). -/
theorem decodeBytes_bytesOfWord {strict : Bool} {w : Word} {i : Instr} (h : decodeWord strict w = .ok i)
    (rest : List Byte) : decodeBytes strict (bytesOfWord w ++ rest) = .ok (i, rest) := by
  simp [bytesOfWord, decodeBytes, h]

/-- Settles O1: the decoder inverts the encoder on words, and the two bytes of a word are that word again. -/
theorem encodedInstructionDecodesBack : Obligations.EncodedInstructionDecodesBack := fun strict _ rest h =>
  ⟨decodeWord_encode strict h, decodeBytes_bytesOfWord (decodeWord_encode strict h) rest⟩

end Sys2Proof
end

section
/-!
PROOF. Memory accesses of one address and of one byte (spec/20_memory.md rules R53, R55 and R62): the range check, the
fetch and the step it starts, the store of a byte, and the fetch of bytes FX55 stored (R66).
-/

namespace Sys2Proof.Machine

/-! ### The range check (R53) -/

theorem effectiveAddr_wrap12 (kind : AccessKind) (a : Nat) : effectiveAddr .wrap12 kind a = .ok (a % memSize) := by
  by_cases h : a < memSize
  · rw [effectiveAddr_of_lt h, Nat.mod_eq_of_lt h]
  · simp [effectiveAddr, h]

theorem effectiveAddr_clamp (kind : AccessKind) (a : Nat) :
    effectiveAddr .clamp kind a = .ok (min a (memSize - 1)) := by
  by_cases h : a < memSize
  · rw [effectiveAddr_of_lt h, Nat.min_eq_left (Nat.le_sub_one_of_lt h)]
  · rw [Nat.min_eq_right (by omega)]
    simp [effectiveAddr, h]

/-- Settles O22: one lemma per policy. -/
theorem addressCheckFollowsThePolicy : Obligations.AddressCheckFollowsThePolicy := by
  refine fun p kind a => ⟨effectiveAddr_of_lt, fun h => ⟨effectiveAddr_fault h, effectiveAddr_fault h,
    effectiveAddr_wrap12 kind a, ?_⟩⟩
  rw [effectiveAddr_clamp, Nat.min_eq_right (show memSize - 1 ≤ a by simp only [memSize]; omega)]
  rfl

/-! ### The fetch (R62) -/

/-- A fetch whose two addresses pass the range check reads the bytes where they land. -/
theorem fetch_of_effectiveAddr {s : State} {e0 e1 : Nat}
    (h0 : effectiveAddr s.cfg.addrPolicy .fetch s.pc.toNat = .ok e0)
    (h1 : effectiveAddr s.cfg.addrPolicy .fetch (s.pc.toNat + 1) = .ok e1) :
    fetch s = .ok (s.peek e0 ++ s.peek e1) := by
  simp [fetch, h0, h1, wordOfBytes]

/-- A fetch that leaves memory reports the first of its two addresses outside: pc, or pc + 1 where pc is 0xFFF. -/
theorem fetch_fault {s : State} (hp : s.cfg.addrPolicy = .fault) (h : 0xFFF ≤ s.pc.toNat) :
    fetch s = .error { cause := .fetchRange, info := max s.pc.toNat 0x1000 } := by
  by_cases hpc : 0x1000 ≤ s.pc.toNat
  · rw [Nat.max_eq_left hpc, fetch, hp, effectiveAddr_fault hpc]
    rfl
  · have hlast : s.pc.toNat = 0xFFF := by omega
    rw [fetch, hp, hlast]
    rfl

/-- Settles O6: the addresses of a fetch that reads are those the range check gives, one lemma per policy. -/
theorem fetchReadsTheWordAtPc : Obligations.FetchReadsTheWordAtPc := by
  refine fun s => ⟨fetch_of_lt, fun hp h => ?_, fun hp h => ?_, fun hp => ?_, fun hp => ?_⟩
  · rw [fetch_fault hp (by omega), Nat.max_eq_left h]
  · rw [fetch_fault hp (by omega), h]
    rfl
  · exact fetch_of_effectiveAddr (hp ▸ effectiveAddr_wrap12 _ _) (hp ▸ effectiveAddr_wrap12 _ _)
  · exact fetch_of_effectiveAddr (hp ▸ effectiveAddr_clamp _ _) (hp ▸ effectiveAddr_clamp _ _)

/-! ### The step a fetch starts (R90) -/

/-- A step of a Ready core runs the word it fetched. -/
theorem step_of_fetch {s : State} {w : Word} (hr : s.run = .ready) (hf : fetch s = .ok w) : step s = runWord w s := by
  rw [step_ready hr, cycle, hf]

/-- A step of a Ready core whose fetch faults takes the fault (R222). -/
theorem step_of_fetch_error {s : State} {r : Raised} (hr : s.run = .ready) (hf : fetch s = .error r) :
    step s = .next (takeFault r s.pc 0 s) := by
  rw [step_ready hr, cycle, hf]

theorem runWord_of_decode {s : State} {w : Word} {i : Instr} (h : decodeWord s.cfg.strict59 w = .ok i) :
    runWord w s = exec i s := by
  rw [runWord, h]

/-- Settles O5: inside memory the fetched word is that of the two bytes at pc. -/
theorem stepRunsTheDecodedInstruction : Obligations.StepRunsTheDecodedInstruction := by
  intro s i hr
  have hstep : ∀ w, fetch s = .ok w → decodeWord s.cfg.strict59 w = .ok i → step s = exec i s := fun w hf hi =>
    (step_of_fetch hr hf).trans (runWord_of_decode hi)
  exact ⟨fun hpc => hstep _ (fetch_of_lt hpc), hstep⟩

/-- Settles O7: the fault the fetch raises is taken with no word. -/
theorem fetchOutsideMemoryHalts : Obligations.FetchOutsideMemoryHalts := fun _ hr hp h =>
  step_of_fetch_error hr (fetch_fault hp h)

/-! ### The store of one byte (R55) -/

/-- The store of one byte is its checks and then one write, or none where P_FONT_WRITE drops it. -/
theorem storeBytes_singleton (s : State) (a : Nat) (b : Byte) :
    storeBytes s a [b] = (storeTarget s.cfg a).map fun target =>
      target.elim s fun e => s.setMem (writeCell s.cfg.font e b s.mem) := by
  simp only [storeBytes, storeCells]
  rcases storeTarget s.cfg a with r | _ | e <;> rfl

section
variable {cfg : Config} {a e : Nat}

theorem storeTarget_of_range_error {r : Raised} (h : effectiveAddr cfg.addrPolicy .data a = .error r) :
    storeTarget cfg a = .error r := by
  simp [storeTarget, h]

theorem storeTarget_font_fault (h : effectiveAddr cfg.addrPolicy .data a = .ok e) (he : e < fontSize)
    (hw : cfg.fontWrite = .fault) : storeTarget cfg a = .error { cause := .fontWrite, info := e } := by
  simp [storeTarget, h, he, hw]

theorem storeTarget_font_ignore (h : effectiveAddr cfg.addrPolicy .data a = .ok e) (he : e < fontSize)
    (hw : cfg.fontWrite = .ignore) : storeTarget cfg a = .ok none := by
  simp [storeTarget, h, he, hw]

theorem storeTarget_writes (h : effectiveAddr cfg.addrPolicy .data a = .ok e)
    (hw : fontSize ≤ e ∨ cfg.fontWrite = .write) : storeTarget cfg a = .ok (some e) := by
  by_cases he : e < fontSize
  · simp [storeTarget, h, he, hw.resolve_left (Nat.not_le.mpr he)]
  · simp [storeTarget, h, he]

end

/-- Settles O23: the checks of the store by cases, and what one write reads back as. -/
theorem byteStoreGuardsTheFont : Obligations.ByteStoreGuardsTheFont := by
  intro s a b hm
  simp only [storeBytes_singleton]
  refine ⟨fun r h => ?_, fun e h => ⟨fun he hw => ?_, fun he hw => ?_, fun hw => ?_⟩⟩
  · rw [storeTarget_of_range_error h]; rfl
  · rw [storeTarget_font_fault h (Nat.lt_succ_of_le he) hw]; rfl
  · rw [storeTarget_font_ignore h (Nat.lt_succ_of_le he) hw]; rfl
  · rw [storeTarget_writes h hw]
    exact ⟨_, rfl, readCell_writeCell_self b hm, fun x hx => readCell_writeCell_of_ne hx b s.mem, keeps_setMem s _⟩

/-! ### A fetch of stored bytes (R66) -/

/-- Stores inside memory and off the immutable font write their bytes in place, in every font mode. -/
theorem storeCells_inside {cfg : Config} :
    ∀ {bytes : List Byte} {a : Nat}, a + bytes.length ≤ memSize → (fontSize ≤ a ∨ cfg.fontWrite = .write) →
      storeCells cfg a bytes = .ok (cellsFrom a bytes)
  | [], _, _, _ => rfl
  | b :: bs, a, ha, hw => by
    rw [List.length_cons] at ha
    have hfirst : storeTarget cfg a = .ok (some a) := storeTarget_writes (effectiveAddr_of_lt (by omega)) hw
    have hrest : storeCells cfg (a + 1) bs = .ok (cellsFrom (a + 1) bs) :=
      storeCells_inside (by omega) (hw.imp_left Nat.le_succ_of_le)
    simp only [storeCells, hfirst, hrest, cellsFrom]

/-- FX55 inside memory and off the immutable font stores V0 to V[x] in place and moves I past them (R154). -/
theorem exec_ldMemX_inside {s : State} {x : Reg} (hx : s.index.toNat + x.val < memSize)
    (hw : fontSize ≤ s.index.toNat ∨ s.cfg.fontWrite = .write) :
    exec (.ldMemX x) s = .next
      ((s.advance.setMem (writeCells s.cfg.font (cellsFrom s.index.toNat (blockRegs s x)) s.mem)).setIndex
        (s.index + BitVec.ofNat 16 (blockSize x))) := by
  have hcells : storeCells s.advance.cfg s.advance.index.toNat (blockRegs s.advance x) =
      .ok (cellsFrom s.index.toNat (blockRegs s x)) :=
    storeCells_inside (by rw [blockRegs_length]; exact hx) hw
  rw [exec, execLdMemX, storeBlock, storeBytes, hcells]
  rfl

/-- After it the stored bytes read back, each register's at its address. -/
theorem peek_of_ldMemX {s t : State} {x : Reg} (hm : Memory.wf s.cfg.font s.mem = true)
    (hx : s.index.toNat + x.val < memSize) (hw : fontSize ≤ s.index.toNat ∨ s.cfg.fontWrite = .write)
    (h : exec (.ldMemX x) s = .next t) {r : Reg} (hr : r ≤ x) : t.peek (s.index.toNat + r.val) = s.getV r := by
  obtain rfl := Host.Outcome.next.inj ((exec_ldMemX_inside hx hw).symm.trans h)
  have hlen := blockRegs_length s x
  have hk : r.val < (blockRegs s x).length := hlen ▸ Nat.lt_succ_of_le hr
  exact (readCell_writeCells_cellsFrom hk (by omega) hm).trans (blockRegs_getElem s x r.val hk)

/-- Settles O42: the fetch is inside memory, and its two bytes are the two registers'. -/
theorem fetchSeesStoredBytes : Obligations.FetchSeesStoredBytes := by
  intro s t u x j k hm hx hw h hc hmem hk hjk hpc
  have hread : ∀ r : Reg, r ≤ x → u.peek (s.index.toNat + r.val) = s.getV r := fun r hr => by
    rw [State.peek, hc, hmem]
    exact peek_of_ldMemX hm hx hw h hr
  have hkx : k.val ≤ x.val := hk
  have hjx : j.val ≤ x.val := by omega
  have hnext : u.pc.toNat + 1 = s.index.toNat + k.val := by omega
  have hlt : u.pc.toNat + 1 < memSize := by simp only [memSize]; omega
  rw [fetch_of_lt hlt, hnext, hpc, hread j hjx, hread k hk, wordOfBytes]

end Sys2Proof.Machine
end

section
/-!
PROOF. What the decoder answers on every word (spec/30_encoding.md rules R84 to R87), said once: a word of R87's table
is rejected by name, and any other word is read as the instruction whose word it is.
-/

namespace Sys2Proof

/-! ### Words that read back -/

/-- `w` is the word of `i`, but that the low nibble of classes 5 and 9 may differ under P_STRICT_5_9 = false (R86). -/
def IsWordOf (strict : Bool) (w : Word) (i : Instr) : Prop :=
  encode i = w ∨ strict = false ∧ (opClass w = 0x5#4 ∨ opClass w = 0x9#4) ∧ encode i = w &&& 0xFFF0#16

/-- The answer R84 to R87 ask of a decoder on the word `w`. -/
def Answers (strict : Bool) (w : Word) : Except DecodeError Instr → Prop
  | .error e => unknownWord strict w = true ∧ e = .unknownOpcode w
  | .ok i => unknownWord strict w = false ∧ WellFormed i ∧ IsWordOf strict w i

section
variable {w : Word} {c : Nibble} (hc : opClass w = c)
include hc

theorem wordNNN_of_fields : wordNNN c (fieldNNN w) = w := hc ▸ wordNNN_fields w

theorem wordXNN_of_fields {nn : Byte} (hn : fieldNN w = nn) : wordXNN c (fieldX w) nn = w :=
  hc ▸ hn ▸ wordXNN_fields w

theorem wordXYN_of_fields {n : Nibble} (hn : fieldN w = n) : wordXYN c (fieldX w) (fieldY w) n = w :=
  hc ▸ hn ▸ wordXYN_fields w

end

/-- The mask 0xFFF0 drops the low nibble and keeps the class and both registers. -/
theorem wordXYN_mask_registers (c : Nibble) (x y : Reg) (n : Nibble) :
    wordXYN c x y n &&& 0xFFF0#16 = wordXYN c x y 0 :=
  word_ext fun i hi => by
    rw [BitVec.getLsbD_and, show (0xFFF0#16) = wordXYN 0xF 15 15 0 from rfl]
    simp only [getLsbD_wordXYN]
    split
    · simp
    · simp only [show regBits 15 = BitVec.allOnes 4 from rfl, show (0xF : Nibble) = BitVec.allOnes 4 from rfl,
        BitVec.getLsbD_allOnes]
      split
      · simp_all
      · split
        · simp_all
        · simp; omega

/-! ### The classes with a secondary opcode, and class 0 -/

/-- Class 0 has no UNKNOWN word: a word other than 00E0 and 00EE is a well-formed 0NNN (R85). -/
theorem decodeClass0_answers {strict : Bool} {w : Word} (hc : opClass w = 0x0#4) :
    Answers strict w (.ok (decodeClass0 w)) := by
  have hu : unknownWord strict w = false := by simp [unknownWord, hc]
  have hw : wordNNN 0x0 (fieldNNN w) = w := wordNNN_of_fields hc
  unfold decodeClass0
  split
  · next hcls => exact ⟨hu, rfl, .inl hcls.symm⟩
  · next hcls =>
    split
    · next hret => exact ⟨hu, rfl, .inl hret.symm⟩
    · next hret =>
      have h1 : fieldNNN w ≠ 0x0E0#12 := fun h => hcls (hw.symm.trans (congrArg (wordNNN 0x0) h))
      have h2 : fieldNNN w ≠ 0x0EE#12 := fun h => hret (hw.symm.trans (congrArg (wordNNN 0x0) h))
      exact ⟨hu, by simp [WellFormed, Instr.wellFormed, h1, h2], .inl hw⟩

/-- Classes 5 and 9 read the low nibble under P_STRICT_5_9 = true alone (R86). -/
theorem strict59_answers {strict : Bool} {w : Word} {i : Instr} (hc : opClass w = 0x5#4 ∨ opClass w = 0x9#4)
    (hi : WellFormed i) (hw : encode i = wordXYN (opClass w) (fieldX w) (fieldY w) 0) :
    Answers strict w (if fieldN w = 0 ∨ strict = false then .ok i else .error (.unknownOpcode w)) := by
  have hu : unknownWord strict w = (strict && fieldN w != 0) := by rcases hc with hc | hc <;> simp [unknownWord, hc]
  split
  · next h =>
    rcases h with hn | hs
    · exact ⟨by simp [hu, hn], hi, .inl (hw.trans (wordXYN_of_fields rfl hn))⟩
    · have hlow : encode i = w &&& 0xFFF0#16 := by rw [hw, ← wordXYN_mask_registers _ _ _ (fieldN w), wordXYN_fields]
      exact ⟨by rw [hu, hs, Bool.false_and], hi, .inr ⟨hs, hc, hlow⟩⟩
  · next h => exact ⟨by simpa [hu, and_comm] using h, rfl⟩

theorem decodeClass8_answers {strict : Bool} {w : Word} (hc : opClass w = 0x8#4) :
    Answers strict w (decodeClass8 w) := by
  unfold decodeClass8
  split
  case h_10 =>
    refine ⟨?_, rfl⟩
    simp only [unknownWord, hc]
    generalize fieldN w = n at *
    revert n
    decide
  all_goals next hn => exact ⟨by simp [unknownWord, hc, hn], rfl, .inl (wordXYN_of_fields hc hn)⟩

theorem decodeClassE_answers {strict : Bool} {w : Word} (hc : opClass w = 0xE#4) :
    Answers strict w (decodeClassE w) := by
  unfold decodeClassE
  split
  case h_3 => exact ⟨by simp_all [unknownWord], rfl⟩
  all_goals next hn => exact ⟨by simp [unknownWord, hc, hn], rfl, .inl (wordXNN_of_fields hc hn)⟩

theorem decodeClassF_answers {strict : Bool} {w : Word} (hc : opClass w = 0xF#4) :
    Answers strict w (decodeClassF w) := by
  unfold decodeClassF
  split
  case h_10 => exact ⟨by simp_all [unknownWord], rfl⟩
  all_goals next hn => exact ⟨by simp [unknownWord, hc, hn], rfl, .inl (wordXNN_of_fields hc hn)⟩

/-! ### Every word -/

/-- The decoder meets R84 to R87 on every word: one case per class. -/
theorem decodeWord_answers (strict : Bool) (w : Word) : Answers strict w (decodeWord strict w) := by
  unfold decodeWord
  split
  case h_1 hc => exact decodeClass0_answers hc
  case h_2 hc | h_3 hc | h_11 hc | h_12 hc =>
    exact ⟨by simp [unknownWord, hc], rfl, .inl (wordNNN_of_fields hc)⟩
  case h_4 hc | h_5 hc | h_7 hc | h_8 hc | h_13 hc =>
    exact ⟨by simp [unknownWord, hc], rfl, .inl (wordXNN_of_fields hc rfl)⟩
  case h_6 hc => exact strict59_answers (.inl hc) rfl (hc ▸ rfl)
  case h_9 hc => exact decodeClass8_answers hc
  case h_10 hc => exact strict59_answers (.inr hc) rfl (hc ▸ rfl)
  case h_14 hc => exact ⟨by simp [unknownWord, hc], rfl, .inl (wordXYN_of_fields hc rfl)⟩
  case h_15 hc => exact decodeClassE_answers hc
  case h_16 =>
    refine decodeClassF_answers ?_
    generalize opClass w = c at *
    revert c
    decide

/-- What the decoder reads from a word is well formed and has that word (R86). -/
theorem wellFormed_isWordOf_of_decodeWord {strict : Bool} {w : Word} {i : Instr} (h : decodeWord strict w = .ok i) :
    WellFormed i ∧ IsWordOf strict w i := by
  have hans : Answers strict w (.ok i) := h ▸ decodeWord_answers strict w
  exact hans.2

/-- Settles O2: the exception for the low nibble needs P_STRICT_5_9 = false. -/
theorem decodedInstructionEncodesToItsWord : Obligations.DecodedInstructionEncodesToItsWord := by
  refine fun w i => ⟨fun h => ?_, fun h => ?_⟩ <;> obtain ⟨hi, hw⟩ := wellFormed_isWordOf_of_decodeWord h
  · exact ⟨hi, hw.resolve_right fun ⟨hs, _⟩ => nomatch hs⟩
  · exact ⟨hi, hw.imp_right And.right⟩

/-- Settles O3: the decoder answers each word by one of its two answers, and the table tells which. -/
theorem unknownWordsAreThoseOfTheTable : Obligations.UnknownWordsAreThoseOfTheTable := by
  intro strict w
  have hans := decodeWord_answers strict w
  cases hd : decodeWord strict w with rw [hd] at hans
  | error e =>
    obtain ⟨hu, rfl⟩ := hans
    exact ⟨fun _ => rfl, fun h => absurd h (by simp [hu])⟩
  | ok i =>
    obtain ⟨hu, -⟩ := hans
    exact ⟨fun h => absurd h (by simp [hu]), fun _ => ⟨i, rfl⟩⟩

/-- Settles O4: twelve closed words, decoded. -/
theorem wordsOfTheEncodingTableDecode : Obligations.WordsOfTheEncodingTableDecode := by
  unfold Obligations.WordsOfTheEncodingTableDecode
  decide

end Sys2Proof
end

section
/-!
PROOF. What the STEP transaction returns (spec/30_encoding.md rule R92).
-/

namespace Sys2Proof.Machine

/-- STEP is the step, with the status of its two states. -/
theorem perform_step_of_next {s t : State} (h : step s = .next t) :
    perform .step s = .next (t, .stepped (stepStatus s t)) := by
  rw [perform, h]

section
variable {s t : State}

theorem stepStatus_waitKey {x : Reg} (h : s.run = .waitKey x) : stepStatus s t = .pending := by
  rw [stepStatus, h]

theorem stepStatus_halted {c : Cause} (h : s.run = .halted c) : stepStatus s t = .halted := by
  rw [stepStatus, h]

theorem stepStatus_ready (h : s.run = .ready) : stepStatus s t = if isHalted t then .halted else .ok := by
  rw [stepStatus, h]

end

/-- Settles O8: a core that is not Ready does not move, and a Ready one answers by whether its step halts it. -/
theorem stepRequestAnswersItsStatus : Obligations.StepRequestAnswersItsStatus := by
  refine fun s => ⟨fun x hr => ?_, fun c hr => ?_, fun t hr ht => ⟨fun c hc => ?_, fun hn => ?_⟩⟩
  · rw [perform_step_of_next (step_not_ready (by simp [hr])), stepStatus_waitKey hr]
  · rw [perform_step_of_next (step_not_ready (by simp [hr])), stepStatus_halted hr]
  · rw [perform_step_of_next ht, stepStatus_ready hr, if_pos (isHalted_iff.mpr ⟨c, hc⟩)]
  · rw [perform_step_of_next ht, stepStatus_ready hr, if_neg fun h => (isHalted_iff.mp h).elim hn]

end Sys2Proof.Machine
end

section
/-!
PROOF. Control flow (spec/40_control_flow.md rules R100 to R108): the jumps, the skips on registers and immediates, the
call and the return, and the jump to itself (R269).
-/

namespace Sys2Proof.Machine

/-! ### The jumps (R102, R108) -/

/-- A jump overwrites the pc advance of its fetch (R24). -/
theorem exec_jp (nnn : Imm12) (s : State) : exec (.jp nnn) s = .next (s.setPc (zext16 nnn)) := rfl

theorem exec_jpV0 (nnn : Imm12) (s : State) :
    exec (.jpV0 nnn) s = .next (s.setPc (zext16 nnn + byteToWord (s.getV V0))) := rfl

/-- Settles O25: the target as a number, and the frame of a pc write. -/
theorem jumpsSetPc : Obligations.JumpsSetPc := fun s nnn =>
  ⟨⟨_, exec_jp nnn s, zext16_toNat nnn, keeps_setPc s _⟩,
    ⟨_, exec_jpV0 nnn s, zext16_add_byteToWord_toNat nnn _, keeps_setPc s _⟩⟩

/-! ### The skips (R104 to R107) -/

/-- A skip after the fetch's advance is one pc write, on the condition the rule states. -/
theorem advance_skipIf_eq {c : Bool} {p : Prop} [Decidable p] (h : c = true ↔ p) (s : State) :
    s.advance.skipIf c = s.setPc (if p then s.pc + 4 else s.pc + 2) := by
  have hpc : (s.advance.skipIf c).pc = if p then s.pc + 4 else s.pc + 2 := by
    simp only [advance_skipIf_pc, h]
  rw [← hpc, skipIf_eq]
  rfl

/-- Settles O24: each skip is a pc write on its comparison. -/
theorem skipsTestTheirOperands : Obligations.SkipsTestTheirOperands := fun s _ _ _ =>
  ⟨congrArg _ (advance_skipIf_eq beq_iff_eq s), congrArg _ (advance_skipIf_eq bne_iff_ne s),
    congrArg _ (advance_skipIf_eq beq_iff_eq s), congrArg _ (advance_skipIf_eq bne_iff_ne s)⟩

/-! ### The call and the return (R101, R103) -/

/-- A call with a free slot pushes the address after it and jumps. -/
theorem exec_call_of_lt {s : State} (h : s.sp.toNat < stackDepth) (nnn : Imm12) :
    exec (.call nnn) s = .next ((s.push (s.pc + 2)).setPc (zext16 nnn)) := by
  rw [exec, execCall, if_neg (Nat.lt_asymm h), if_neg (Nat.ne_of_lt h)]
  rfl

/-- A return with an entry on the stack jumps to the entry and drops it. -/
theorem exec_ret_of_pos {s : State} (h0 : 0 < s.sp.toNat) (h : s.sp.toNat ≤ stackDepth) :
    exec .ret s = .next (s.drop.setPc (s.stackAt (s.sp.toNat - 1))) := by
  have hsp : s.sp ≠ 0 := fun e => by simp [e] at h0
  rw [exec, execRet, if_neg (Nat.not_lt.mpr h), if_neg hsp]
  rfl

theorem push_sp_toNat {s : State} (h : s.sp.toNat < stackDepth) (a : Word) :
    (s.push a).sp.toNat = s.sp.toNat + 1 := by
  simp only [State.push_sp, stackDepth] at *
  bv_omega

theorem drop_sp_toNat {s : State} (h : 0 < s.sp.toNat) : s.drop.sp.toNat = s.sp.toNat - 1 := by
  simp only [State.drop_sp]
  bv_omega

theorem keeps_push_setPc (s : State) (a p : Word) : KeepsBut [.pc, .sp, .stack] s ((s.push a).setPc p) :=
  (keeps_push s a).trans (keeps_setPc _ p) (by decide) (by decide)

theorem keeps_drop_setPc (s : State) (p : Word) : KeepsBut [.pc, .sp] s (s.drop.setPc p) :=
  (keeps_drop s).trans (keeps_setPc _ p) (by decide) (by decide)

/-- Settles O26: with a free slot a call is a push and a jump, and with none it raises what the table lists. -/
theorem callPushesTheReturnAddress : Obligations.CallPushesTheReturnAddress := by
  intro s nnn
  refine ⟨fun h => ?_, fun h => Raises.exec_eq ⟨h, rfl, rfl⟩⟩
  have hslot : ∀ k, ((s.push (s.pc + 2)).setPc (zext16 nnn)).stackAt k =
      if k = s.sp.toNat then s.pc + 2 else s.stackAt k := fun k => State.push_stackAt s _ k h
  exact ⟨_, exec_call_of_lt h nnn, (hslot _).trans (if_pos rfl), fun k hk => (hslot k).trans (if_neg hk),
    push_sp_toNat h (s.pc + 2), zext16_toNat nnn, keeps_push_setPc s _ _⟩

/-- Settles O27: with an entry a return is a pop and a jump, and with none it raises what the table lists. -/
theorem returnPopsIntoPc : Obligations.ReturnPopsIntoPc := fun s =>
  ⟨fun h1 h16 => ⟨_, exec_ret_of_pos h1 h16, rfl, drop_sp_toNat h1, keeps_drop_setPc s _⟩,
    fun h => Raises.exec_eq (i := .ret) ⟨h, rfl, rfl⟩⟩

/-- An element known to be the same leaves the list of a frame. -/
theorem KeepsBut.remove {f : Field} {fs : List Field} {s t : State} (h : KeepsBut fs s t) (hf : f.Same s t) :
    KeepsBut (fs.filter (· ≠ f)) s t := fun g hg => by
  by_cases e : g = f
  · exact e ▸ hf
  · exact h g fun hm => hg (by simp [hm, e])

/-- Settles O28: the state after the call is one a return pops from, its top entry is the address the call pushed, and
sp is back where it was. -/
theorem returnLandsAfterTheCall : Obligations.ReturnLandsAfterTheCall := by
  intro s t nnn h hcall
  obtain ⟨t', ht', htop, -, hspt, -, hkt⟩ := (callPushesTheReturnAddress s nnn).1 h
  obtain rfl : t' = t := Host.Outcome.next.inj (ht'.symm.trans hcall)
  obtain ⟨u, hu, hpc, hspu, hku⟩ := (returnPopsIntoPc t').1 (by omega) (by omega)
  have hslot : t'.sp.toNat - 1 = s.sp.toNat := by omega
  have hsp : u.sp = s.sp := BitVec.eq_of_toNat_eq (hspu.trans hslot)
  have hkeeps : KeepsBut [.pc, .sp, .stack] s u := hkt.trans hku (by decide) (by decide)
  exact ⟨u, hu, hpc.trans (hslot ▸ htop), hsp, hkeeps.remove (f := .sp) hsp⟩

/-! ### The jump to itself (R269) -/

/-- A state the step does not move, no number of STEPs moves. -/
theorem performAll_replicate_step {s : State} (h : step s = .next s) :
    ∀ k, performAll (List.replicate k .step) s = .next s
  | 0 => rfl
  | k + 1 => by
    rw [List.replicate_succ, performAll, perform_step_of_next h]
    exact performAll_replicate_step h k

/-- A pc write of pc's own value changes nothing. -/
theorem State.setPc_pc_self (s : State) : s.setPc s.pc = s := rfl

/-- Settles O10: the step of a jump to itself writes pc with its own value, and the run is by induction. -/
theorem selfJumpStaysForEver : Obligations.SelfJumpStaysForEver := by
  intro s nnn k hr hf hpc
  have htarget : zext16 nnn = s.pc := BitVec.eq_of_toNat_eq ((zext16_toNat nnn).trans hpc.symm)
  have hstep : step s = .next s := by
    rw [step_of_fetch hr hf, runWord_of_decode (decodeWord_encode _ rfl), exec_jp, htarget, State.setPc_pc_self]
  exact performAll_replicate_step hstep k

end Sys2Proof.Machine
end

section
/-!
PROOF. Register loads, the ALU and the random byte (spec/41_alu.md rules R120 to R136). Every flag-writing instruction
is one `writeFlagged`, so what it leaves is said once, and each rule adds the value of its flag and of its result.
-/

namespace Sys2Proof.Machine

/-! ### One register written (R123 to R128, R134) -/

/-- The frame of an instruction that writes V[x] after the fetch's advance. -/
theorem advance_setV_frame (s : State) (x : Reg) (b : Byte) :
    KeepsRegsBut [x] s (s.advance.setV x b) ∧ FallsThrough [.v] s (s.advance.setV x b) :=
  ⟨keepsRegs_setV s.advance x b, rfl, (keeps_setV s.advance x b).of_advance⟩

/-- A register reads as what was written into it. -/
theorem State.getV_setV_same (s : State) (x : Reg) (b : Byte) : (s.setV x b).getV x = b := by simp

/-- An instruction that writes V[x] completes with any property its value has. -/
theorem exec_setV_outcome {i : Instr} {s : State} {x : Reg} {b : Byte} (P : Byte → Prop)
    (h : exec i s = .next (s.advance.setV x b)) (hb : P b) :
    ∃ t, exec i s = .next t ∧ P (t.getV x) ∧ KeepsRegsBut [x] s t ∧ FallsThrough [.v] s t :=
  ⟨_, h, (State.getV_setV_same s.advance x b).symm ▸ hb, advance_setV_frame s x b⟩

/-- Settles O29: one register write each, and the sum of two bytes as a number. -/
theorem immediatesLoadAndAdd : Obligations.ImmediatesLoadAndAdd := fun s x nn =>
  ⟨exec_setV_outcome (· = nn) rfl rfl,
    exec_setV_outcome (fun b => b.toNat = ((s.getV x).toNat + nn.toNat) % 256) rfl (BitVec.toNat_add _ _)⟩

/-- Settles O30: one register write each, and the bits of OR, AND and XOR. -/
theorem copyAndBitwiseOperations : Obligations.CopyAndBitwiseOperations := fun s x y =>
  ⟨exec_setV_outcome (· = s.getV y) rfl rfl,
    exec_setV_outcome (fun b => ∀ k, b.getLsbD k = ((s.getV x).getLsbD k || (s.getV y).getLsbD k)) rfl
      fun _ => BitVec.getLsbD_or,
    exec_setV_outcome (fun b => ∀ k, b.getLsbD k = ((s.getV x).getLsbD k && (s.getV y).getLsbD k)) rfl
      fun _ => BitVec.getLsbD_and,
    exec_setV_outcome (fun b => ∀ k, b.getLsbD k = ((s.getV x).getLsbD k != (s.getV y).getLsbD k)) rfl
      fun _ => BitVec.getLsbD_xor⟩

/-- Settles O36: the draw is counted before the register write, and the byte drawn stays free. -/
theorem randomByteIsMasked : Obligations.RandomByteIsMasked := fun s x nn =>
  let b := Config.drawRand s.draws &&& nn
  have hb : (s.advance.drawn.setV x b).getV x = b := State.getV_setV_same _ x b
  ⟨_, rfl, fun _ => hb ▸ BitVec.getLsbD_and, rfl, keepsRegs_setV s.advance.drawn x b, rfl, keeps_drawn_setV x b s⟩

/-! ### The two writes of a flag-writing instruction (R121) -/

/-- The state the second statement of a flag-writing instruction computes V[x] from: under SEQUENTIAL, VF holds the
flag. -/
def afterFlag (s : State) (flag : Byte) : State :=
  match s.cfg.aluOrder with
  | .sequential => s.setV VF flag
  | .flagLast => s

theorem afterFlag_sequential {s : State} (h : s.cfg.aluOrder = .sequential) (flag : Byte) :
    afterFlag s flag = s.setV VF flag := by simp [afterFlag, h]

theorem afterFlag_flagLast {s : State} (h : s.cfg.aluOrder = .flagLast) (flag : Byte) : afterFlag s flag = s := by
  simp [afterFlag, h]

/-- The operands in that state are those the rule speaks of. -/
theorem afterFlag_getV_toNat (s : State) (F : Byte) (r : Reg) :
    ((afterFlag s.advance F).getV r).toNat = operandAfterFlag s r F.toNat := by
  cases h : s.cfg.aluOrder with
  | sequential =>
    rw [afterFlag_sequential (s := s.advance) h, State.setV_getV, operandAfterFlag]
    by_cases hr : r = VF <;> simp [h, hr]
  | flagLast => rw [afterFlag_flagLast (s := s.advance) h, operandAfterFlag, if_neg (by simp [h])]; rfl

/-- The two writes in the order P_ALU_ORDER selects leave V[x] and VF as R121 says. -/
theorem flaggedResult_writeFlagged {s : State} {x : Reg} {f g : State → Byte} {result flag : Nat}
    (hf : (f s.advance).toNat = flag) (hg : (g (afterFlag s.advance (f s.advance))).toNat = result) :
    FlaggedResult s (writeFlagged s.advance x f g) x result flag := by
  obtain ⟨hkeeps, hregs⟩ := keeps_writeFlagged s.advance x f g
  have hfall : FallsThrough [.v] s (writeFlagged s.advance x f g) := by
    obtain ⟨v, hv⟩ := writeFlagged_setRegs s.advance x f g
    exact ⟨hv ▸ rfl, hkeeps.of_advance⟩
  cases h : s.cfg.aluOrder with
  | sequential =>
    have hw := writeFlagged_sequential (s := s.advance) h x f g
    rw [afterFlag_sequential (s := s.advance) h] at hg
    refine ⟨fun hx => ?_, fun hx _ => ?_, fun _ hl => ?_, hregs, hfall⟩
    · simp [hw, hg, hf, Ne.symm hx]
    · rw [hw]; simp [hg, hx]
    · cases h.symm.trans hl
  | flagLast =>
    have hw := writeFlagged_flagLast (s := s.advance) h x f g
    rw [afterFlag_flagLast (s := s.advance) h] at hg
    refine ⟨fun hx => ?_, fun _ hl => ?_, fun _ _ => ?_, hregs, hfall⟩
    · simp [hw, hg, hf, hx]
    · cases h.symm.trans hl
    · simp [hw, hf]

/-! ### The values of flags and results as numbers (R120) -/

theorem carryFlag_toNat (a b : Byte) : (carryFlag a b).toNat = if a.toNat + b.toNat > 255 then 1 else 0 := by
  simp [carryFlag]

theorem notBorrowFlag_toNat (a b : Byte) : (notBorrowFlag a b).toNat = if a.toNat ≥ b.toNat then 1 else 0 := by
  simp [notBorrowFlag]

theorem lowBitFlag_toNat (a : Byte) : (lowBitFlag a).toNat = a.toNat % 2 :=
  (BitVec.toNat_and a 1).trans (Nat.and_one_is_mod _)

/-- Masking with 0x80 tests the most significant bit. -/
theorem and_0x80_ne_zero (a : Byte) : (a &&& 0x80 != 0) = a.msb := by
  have hmask : a &&& 0x80 = if a.getLsbD 7 then 0x80 else 0 := BitVec.and_twoPow a 7
  rw [hmask, BitVec.msb_eq_getLsbD_last]
  cases a.getLsbD 7 <;> rfl

theorem highBitFlag_toNat (a : Byte) : (highBitFlag a).toNat = a.toNat / 128 := by
  have ha := a.isLt
  rw [highBitFlag, boolByte_toNat, and_0x80_ne_zero, BitVec.msb_eq_decide]
  simp only [decide_eq_true_eq]
  split <;> omega

theorem byte_sub_toNat (a b : Byte) : (a - b).toNat = (256 + a.toNat - b.toNat) % 256 := by
  have hb := b.isLt
  rw [BitVec.toNat_sub]
  omega

theorem byte_ushiftRight_one_toNat (a : Byte) : (a >>> 1).toNat = a.toNat / 2 :=
  (BitVec.toNat_ushiftRight a 1).trans (Nat.shiftRight_one _)

theorem byte_shiftLeft_one_toNat (a : Byte) : (a <<< 1).toNat = 2 * a.toNat % 256 := by
  rw [BitVec.toNat_shiftLeft, Nat.shiftLeft_eq, Nat.mul_comm]

/-! ### Addition and subtraction (R129, R130, R132) -/

/-- Settles O31: the sum is of the operands before any write, whatever the order. -/
theorem addSetsCarry : Obligations.AddSetsCarry := fun _ _ _ =>
  ⟨_, rfl, flaggedResult_writeFlagged (carryFlag_toNat _ _) (BitVec.toNat_add _ _)⟩

/-- The difference of any two registers with its not-borrow flag: 8XY5 and 8XY7 take them in the two orders. -/
theorem flaggedResult_sub (s : State) (x a b : Reg) :
    let flag := if (s.getV a).toNat ≥ (s.getV b).toNat then 1 else 0
    FlaggedResult s
      (writeFlagged s.advance x (fun t => notBorrowFlag (t.getV a) (t.getV b)) (fun t => t.getV a - t.getV b)) x
      ((256 + operandAfterFlag s a flag - operandAfterFlag s b flag) % 256) flag := by
  intro flag
  have hflag : (notBorrowFlag (s.getV a) (s.getV b)).toNat = flag := notBorrowFlag_toNat _ _
  refine flaggedResult_writeFlagged hflag ?_
  rw [byte_sub_toNat, afterFlag_getV_toNat, afterFlag_getV_toNat, State.advance_getV, State.advance_getV, hflag]

/-- Settles O32: V[X] minus V[Y]. -/
theorem subtractSetsNotBorrow : Obligations.SubtractSetsNotBorrow := fun s x y =>
  ⟨_, rfl, flaggedResult_sub s x x y⟩

/-- Settles O33: V[Y] minus V[X]. -/
theorem reverseSubtractSetsNotBorrow : Obligations.ReverseSubtractSetsNotBorrow := fun s x y =>
  ⟨_, rfl, flaggedResult_sub s x y x⟩

/-! ### Shifts (R131, R133) -/

/-- The operand is the register P_SHIFT_SRC selects (R122). -/
theorem shiftOperand_eq {cfg : Config} {x y o : Reg} (hx : cfg.shiftSrc = .vx → o = x)
    (hy : cfg.shiftSrc = .vy → o = y) : shiftOperand cfg x y = o := by
  unfold shiftOperand
  split
  · next h => exact (hx h).symm
  · next h => exact (hy h).symm

/-- Both shifts: the flag and the result each depend on the operand alone, as the numbers `flagOf` and `resultOf`. -/
theorem flaggedResult_unary {f g : Byte → Byte} {flagOf resultOf : Nat → Nat}
    (hf : ∀ a, (f a).toNat = flagOf a.toNat) (hg : ∀ a, (g a).toNat = resultOf a.toNat) (s : State) (x o : Reg) :
    FlaggedResult s (writeFlagged s.advance x (fun t => f (t.getV o)) (fun t => g (t.getV o))) x
      (resultOf (operandAfterFlag s o (flagOf (s.getV o).toNat))) (flagOf (s.getV o).toNat) := by
  refine flaggedResult_writeFlagged (hf _) ?_
  rw [hg, afterFlag_getV_toNat, hf, State.advance_getV]

/-- Settles O34: the bit shifted out and the half, of the operand. -/
theorem shiftRightSetsShiftedOutBit : Obligations.ShiftRightSetsShiftedOutBit := fun s x y o hx hy => by
  refine ⟨_, rfl, ?_⟩
  rw [shiftOperand_eq hx hy]
  exact flaggedResult_unary (flagOf := (· % 2)) (resultOf := (· / 2)) lowBitFlag_toNat
    byte_ushiftRight_one_toNat s x o

/-- Settles O35: the bit shifted out and the double, of the operand. -/
theorem shiftLeftSetsShiftedOutBit : Obligations.ShiftLeftSetsShiftedOutBit := fun s x y o hx hy => by
  refine ⟨_, rfl, ?_⟩
  rw [shiftOperand_eq hx hy]
  exact flaggedResult_unary (flagOf := (· / 128)) (resultOf := (2 * · % 256)) highBitFlag_toNat
    byte_shiftLeft_one_toNat s x o

end Sys2Proof.Machine
end

section
/-!
PROOF. The index register and the memory instructions (spec/42_index_memory.md rules R150 to R156). The accesses of a
block and the faults they raise are those of Laws/Access.lean; here stands what each instruction makes of them.
-/

namespace Sys2Proof.Machine

/-! ### The writes of I (R150, R151, R152) -/

theorem byteToWord_toNat (b : Byte) : (byteToWord b).toNat = b.toNat := by
  simp [byteToWord]; omega

/-- R151: the sum is reduced modulo 65536. -/
theorem add_byteToWord_toNat (a : Word) (b : Byte) : (a + byteToWord b).toNat = (a.toNat + b.toNat) % 65536 := by
  rw [BitVec.toNat_add, byteToWord_toNat]

/-- R152: five times a byte fits in I. -/
theorem five_mul_byteToWord_toNat (b : Byte) : (5 * byteToWord b).toNat = 5 * b.toNat := by
  have hb := b.isLt
  rw [BitVec.toNat_mul, byteToWord_toNat]
  exact Nat.mod_eq_of_lt (by simp only [BitVec.reduceToNat]; omega)

/-- R154, R155: I moves past the block V0 to V[x], modulo 65536. -/
theorem add_blockSize_toNat (a : Word) (x : Reg) :
    (a + BitVec.ofNat 16 (blockSize x)).toNat = (a.toNat + x.val + 1) % 65536 := by
  rw [BitVec.toNat_add, BitVec.toNat_ofNat, Nat.add_mod_mod, blockSize, Nat.add_assoc]

/-- An instruction that writes I after the fetch's advance falls through. -/
theorem advance_setIndex_fallsThrough (s : State) (a : Word) : FallsThrough [.index] s (s.advance.setIndex a) :=
  ⟨rfl, (keeps_setIndex s.advance a).of_advance⟩

/-- Settles O37: one write of I each, and its value as a number. -/
theorem indexRegisterWrites : Obligations.IndexRegisterWrites := fun s x nnn =>
  ⟨⟨_, rfl, zext16_toNat nnn, advance_setIndex_fallsThrough s _⟩,
    ⟨_, rfl, add_byteToWord_toNat s.index (s.getV x), advance_setIndex_fallsThrough s _⟩,
    ⟨_, rfl, five_mul_byteToWord_toNat (s.getV x), advance_setIndex_fallsThrough s _⟩⟩

/-! ### Stores (R153, R154) -/

/-- An instruction that raises what its block of `n` stores from I raises halts the core for the first byte that
fails, its range before the font region (R224). -/
theorem exec_eq_of_firstStoreFault {i : Instr} {s : State} {n k : Nat}
    (hi : ∀ c a, StoreRaises s n c a → Raises i s c a) (h : FirstStoreFault s.cfg s.index.toNat n k) :
    exec i s = .next
      (if RangeFails s.cfg (s.index.toNat + k) then haltedBy s .memRange (encode i) (s.index.toNat + k)
       else haltedBy s .fontWrite (encode i) (landing s.cfg (s.index.toNat + k))) := by
  split
  · next hr => exact (hi _ _ ⟨k, h, .inl ⟨hr, rfl, rfl⟩⟩).exec_eq
  · next hr => exact (hi _ _ ⟨k, h, .inr ⟨hr, rfl, rfl⟩⟩).exec_eq

/-- Settles O38: the digits are one block of stores, which completes or raises for its first byte that fails. -/
theorem decimalDigitsAreStored : Obligations.DecimalDigitsAreStored := by
  refine fun s x hm => ⟨fun h => ?_, fun _ => exec_eq_of_firstStoreFault fun _ _ => id⟩
  obtain ⟨m, hstore, hstored⟩ := storeBytes_stored (s := s.advance) (bytes := decimalDigits (s.getV x)) hm h
  refine ⟨s.advance.setMem m, ?_, ⟨rfl, (keeps_setMem s.advance m).of_advance⟩, hstored⟩
  exact congrArg (conclude _ s) hstore

/-- FX55 whose stores complete moves I past the block (R154). -/
theorem storeBlock_of_storeBytes {x : Reg} {s t : State} (h : storeBytes s s.index.toNat (blockRegs s x) = .ok t) :
    storeBlock x s = .ok (t.setIndex (s.index + BitVec.ofNat 16 (blockSize x))) := by
  rw [storeBlock, h]

/-- Settles O39: the registers are one block of stores, which completes or raises for its first byte that fails. -/
theorem registerBlockIsStored : Obligations.RegisterBlockIsStored := by
  refine fun s x hm => ⟨fun h => ?_, fun _ => exec_eq_of_firstStoreFault fun _ _ => id⟩
  obtain ⟨m, hstore, hstored⟩ := storeBytes_stored (s := s.advance) (bytes := blockRegs s x) hm
    fun k hk => h k (Nat.le_of_lt_succ (hk.trans_eq (blockRegs_length s x)))
  have hblock := storeBlock_of_storeBytes (s := s.advance) hstore
  refine ⟨_, congrArg (conclude _ s) hblock, ⟨rfl, ?_⟩, add_blockSize_toNat s.index x, blockRegs_eq s x ▸ hstored⟩
  exact ((keeps_setMem s.advance m).trans (keeps_setIndex _ _) (by decide) (by decide)).of_advance

/-! ### Loads (R155) -/

/-- FX65 whose loads complete writes the registers and moves I past the block (R155). -/
theorem loadBlock_of_loadBytes {x : Reg} {s : State} {bytes : List Byte}
    (h : loadBytes s s.index.toNat (blockSize x) = .ok bytes) :
    loadBlock x s = .ok ((s.setRegs (setBlock 0 bytes s.v)).setIndex (s.index + BitVec.ofNat 16 (blockSize x))) := by
  rw [loadBlock, h]

/-- The bytes a block of loads into V0 to V[x] reads, where none of them raises. -/
def landedBytes (s : State) (x : Reg) : List Byte :=
  (List.range (blockSize x)).map fun k => s.peek (landing s.cfg (s.index.toNat + k))

theorem landedBytes_length (s : State) (x : Reg) : (landedBytes s x).length = x.val + 1 := by
  simp [landedBytes, blockSize]

/-- The state FX65 leaves where none of its bytes raises. -/
def blockLoaded (s : State) (x : Reg) : State :=
  (s.advance.setRegs (setBlock 0 (landedBytes s x) s.v)).setIndex (s.index + BitVec.ofNat 16 (blockSize x))

theorem exec_ldXMem_loaded {s : State} {x : Reg} (h : ∀ k, k ≤ x.val → ¬RangeFails s.cfg (s.index.toNat + k)) :
    exec (.ldXMem x) s = .next (blockLoaded s x) := by
  have hload : loadBytes s.advance s.index.toNat (blockSize x) = .ok (landedBytes s x) :=
    loadBytes_ok (s := s.advance) fun k hk => h k (Nat.le_of_lt_succ hk)
  exact congrArg (conclude _ s) (loadBlock_of_loadBytes hload)

/-- A register of the block holds the byte its address lands on. -/
theorem blockLoaded_getV_of_le {s : State} {x r : Reg} (hr : r ≤ x) :
    (blockLoaded s x).getV r = s.peek (landing s.cfg (s.index.toNat + r.val)) := by
  have hlen : r.val < (landedBytes s x).length := landedBytes_length s x ▸ Nat.lt_succ_of_le hr
  refine (setBlock_get _ 0 s.v r).trans ?_
  rw [dif_pos ⟨Nat.zero_le _, hlen⟩]
  simp [landedBytes]

theorem blockLoaded_getV_of_lt {s : State} {x r : Reg} (hr : x < r) : (blockLoaded s x).getV r = s.getV r :=
  setBlock_get_of_le (landedBytes_length s x ▸ Nat.succ_le_of_lt hr) s.v

theorem blockLoaded_fallsThrough (s : State) (x : Reg) : FallsThrough [.v, .index] s (blockLoaded s x) :=
  ⟨rfl, ((keeps_setRegs s.advance _).trans (keeps_setIndex _ _) (by decide) (by decide)).of_advance⟩

/-- Settles O40: the bytes are one block of loads, which completes or raises for its first byte outside memory. -/
theorem registerBlockIsLoaded : Obligations.RegisterBlockIsLoaded := fun s x =>
  ⟨fun h => ⟨blockLoaded s x, exec_ldXMem_loaded h, blockLoaded_fallsThrough s x, add_blockSize_toNat s.index x,
      fun _ => blockLoaded_getV_of_le, fun _ => blockLoaded_getV_of_lt⟩,
    fun k hk => Raises.exec_eq (i := .ldXMem x) ⟨k, hk, rfl, rfl⟩⟩

/-! ### A block stored and loaded (R154, R155) -/

theorem landing_of_lt {cfg : Config} {a : Nat} (h : a < 0x1000) : landing cfg a = a := if_pos h

/-- Settles O41: inside memory every address lands on itself, and holds the byte its register had. -/
theorem storedBlockLoadsBack : Obligations.StoredBlockLoadsBack := by
  intro s t u x hm hx hw h hcfg hmem hindex
  have hlt : ∀ k, k ≤ x.val → u.index.toNat + k < 0x1000 := fun k hk => by rw [hindex]; omega
  refine ⟨blockLoaded u x, exec_ldXMem_loaded fun k hk hr => Nat.not_le.mpr (hlt k hk) hr.2, fun r hr => ?_, ?_⟩
  · have hpeek : u.peek (u.index.toNat + r.val) = t.peek (s.index.toNat + r.val) := by
      rw [State.peek, State.peek, hcfg, hmem, hindex]
    rw [blockLoaded_getV_of_le hr, landing_of_lt (hlt r hr), hpeek, peek_of_ldMemX hm hx hw h hr]
  · obtain rfl := Host.Outcome.next.inj ((exec_ldMemX_inside hx hw).symm.trans h)
    exact congrArg (· + BitVec.ofNat 16 (blockSize x)) hindex

end Sys2Proof.Machine
end

section
/-!
PROOF. The display instructions (spec/43_display.md rules R170 to R175). What a blit does to each pixel is said in
Laws/Display.lean; here stands the state a DXYN leaves, with the pixels of its sprite as one list, which a second DXYN
meets again.
-/

namespace Sys2Proof.Machine

/-! ### The screen cleared (R170) -/

/-- Settles O43: 00E0 stores the blank framebuffer, which is a draw. -/
theorem clearScreenClearsEveryPixel : Obligations.ClearScreenClearsEveryPixel := fun s =>
  ⟨_, rfl, pixel_blankFb, rfl, rfl, (keeps_setFb s.advance blankFb).of_advance⟩

/-! ### The pixels of a sprite (R171) -/

/-- The bytes of the sprite of DXYN, where none of its reads raises. -/
def spriteBytes (s : State) (n : Nibble) : List Byte :=
  (List.range n.toNat).map fun k => s.peek (landing s.cfg (s.index.toNat + k))

theorem spriteBytes_length_le (s : State) (n : Nibble) : (spriteBytes s n).length ≤ 15 := by
  have hn := n.isLt
  simp only [spriteBytes, List.length_map, List.length_range]
  omega

/-- The pixels on which DXYN lands a sprite bit of 1. -/
def coveredPixels (s : State) (x y : Reg) (n : Nibble) : List (Fin 32 × Fin 64) :=
  spritePixels (s.getV x) (s.getV y) 0 (spriteBytes s n)

theorem mem_coveredPixels {s : State} {x y : Reg} {n : Nibble} {row : Fin 32} {col : Fin 64} :
    (row, col) ∈ coveredPixels s x y n ↔ SpriteCovers s x y n row col := by
  simp [coveredPixels, mem_spritePixels, SpriteCovers, spriteBytes, Fin.ext_iff, Fin.ofNat]

/-! ### The state a DXYN leaves (R172 to R174) -/

/-- The framebuffer and `collided` after the blit of DXYN. -/
def spriteBlit (s : State) (x y : Reg) (n : Nibble) : Framebuffer × Bool :=
  blit s.fb (s.getV x) (s.getV y) (spriteBytes s n)

/-- The state DXYN leaves where none of its reads raises. -/
def spriteDrawn (s : State) (x y : Reg) (n : Nibble) : State :=
  (drawFlag s.advance (spriteBlit s x y n).2).setFb (spriteBlit s x y n).1

theorem exec_drw_drawn {s : State} {n : Nibble} (h : ∀ k, k < n.toNat → ¬RangeFails s.cfg (s.index.toNat + k))
    (x y : Reg) : exec (.drw x y n) s = .next (spriteDrawn s x y n) := by
  have hload : loadBytes s.advance s.index.toNat n.toNat = .ok (spriteBytes s n) := loadBytes_ok (s := s.advance) h
  have hdraw : drawSprite x y n s.advance = .ok (spriteDrawn s x y n) := by
    rw [drawSprite, State.advance_index, hload]; rfl
  exact congrArg (conclude _ s) hdraw

theorem spriteDrawn_fallsThrough (s : State) (x y : Reg) (n : Nibble) :
    FallsThrough [.v, .fb, .redraw] s (spriteDrawn s x y n) := by
  have hflag := (keeps_drawFlag s.advance (spriteBlit s x y n).2).1
  exact ⟨hflag .pc (by decide), (hflag.trans (keeps_setFb _ _) (by decide) (by decide)).of_advance⟩

@[simp] theorem spriteDrawn_cfg (s : State) (x y : Reg) (n : Nibble) : (spriteDrawn s x y n).cfg = s.cfg :=
  (spriteDrawn_fallsThrough s x y n).2 .cfg (by decide)

@[simp] theorem spriteDrawn_index (s : State) (x y : Reg) (n : Nibble) : (spriteDrawn s x y n).index = s.index :=
  (spriteDrawn_fallsThrough s x y n).2 .index (by decide)

@[simp] theorem spriteDrawn_peek (s : State) (x y : Reg) (n : Nibble) (a : Nat) :
    (spriteDrawn s x y n).peek a = s.peek a :=
  (spriteDrawn_fallsThrough s x y n).2 .mem (by decide) a

@[simp] theorem spriteDrawn_run (s : State) (x y : Reg) (n : Nibble) : (spriteDrawn s x y n).run = s.run :=
  (spriteDrawn_fallsThrough s x y n).2 .run (by decide)

/-- R171: each covered pixel is toggled, and no other. -/
theorem pixel_spriteDrawn (s : State) (x y : Reg) (n : Nibble) (r : Fin 32) (c : Fin 64) :
    pixel (spriteDrawn s x y n).fb r c = ((pixel s.fb r c) ^^ decide ((r, c) ∈ coveredPixels s x y n)) :=
  (blit_spec s.fb (s.getV x) (s.getV y) (spriteBytes_length_le s n)).1 r c

/-- R174: a draw collides exactly if a covered pixel was lit. -/
theorem spriteBlit_collides_iff {s : State} {x y : Reg} {n : Nibble} :
    (spriteBlit s x y n).2 = true ↔ ∃ r c, SpriteCovers s x y n r c ∧ pixel s.fb r c = true := by
  rw [spriteBlit, (blit_spec s.fb _ _ (spriteBytes_length_le s n)).2, List.any_eq_true, Prod.exists]
  exact exists₂_congr fun r c => and_congr_left' mem_coveredPixels

theorem drawFlag_getV_VF (s : State) (collided : Bool) :
    (drawFlag s collided).getV VF = if collided then 1 else if s.cfg.drawClearsVF then 0 else s.getV VF := by
  simp only [drawFlag, apply_ite (State.getV · VF), State.getV_setV_same]

/-- R172, R173: VF is 1 on a collision, and otherwise is kept or 0. -/
theorem spriteDrawn_flag (s : State) (x y : Reg) (n : Nibble) :
    ((∃ r c, SpriteCovers s x y n r c ∧ pixel s.fb r c = true) → (spriteDrawn s x y n).getV VF = 1) ∧
      ((¬∃ r c, SpriteCovers s x y n r c ∧ pixel s.fb r c = true) →
        (spriteDrawn s x y n).getV VF = if s.cfg.drawClearsVF = true then 0 else s.getV VF) := by
  rw [← spriteBlit_collides_iff, spriteDrawn, State.setFb_getV, drawFlag_getV_VF]
  exact ⟨fun hc => if_pos hc, fun hc => if_neg hc⟩

/-- Settles O44: the sprite is one block of loads, which completes or raises for its first byte outside memory, and the
blit of its bytes toggles the covered pixels. -/
theorem drawTogglesThePixelsOfTheSprite : Obligations.DrawTogglesThePixelsOfTheSprite := by
  refine fun s x y n => ⟨fun h => ⟨spriteDrawn s x y n, exec_drw_drawn h x y, spriteDrawn_fallsThrough s x y n,
    (keeps_drawFlag s.advance _).2, rfl, fun r c hc => ?_, fun r c hc => ?_, spriteDrawn_flag s x y n⟩,
    fun k hk => Raises.exec_eq (i := .drw x y n) ⟨k, hk, rfl, rfl⟩⟩
  · simp [pixel_spriteDrawn, mem_coveredPixels.mpr hc]
  · simp [pixel_spriteDrawn, mem_coveredPixels.not.mpr hc]

/-! ### The same sprite drawn twice (R175) -/

/-- Where a byte of a block of reads raises, one of them is the first. -/
theorem exists_firstReadFault {cfg : Config} {a n : Nat} (h : ∃ k, k < n ∧ RangeFails cfg (a + k)) :
    ∃ k, FirstReadFault cfg a n k :=
  have ⟨hlt, hfail⟩ := Nat.find_spec h
  ⟨Nat.find h, hlt, hfail, fun _ hj hr => Nat.find_min h hj ⟨hj.trans hlt, hr⟩⟩

/-- A DXYN that does not halt the core has read its whole sprite. -/
theorem drw_reads_inside {s t : State} {x y : Reg} {n : Nibble} (h : exec (.drw x y n) s = .next t)
    (ht : isHalted t = false) : ∀ k, k < n.toNat → ¬RangeFails s.cfg (s.index.toNat + k) := by
  intro k hk hr
  obtain ⟨j, hj⟩ := exists_firstReadFault ⟨k, hk, hr⟩
  have hhalt := Raises.exec_eq (i := .drw x y n) ⟨j, hj, rfl, rfl⟩
  cases h.symm.trans hhalt
  exact Bool.noConfusion ht

/-- A draw moves neither I nor the bytes of memory, so from the same coordinates the next one covers the same pixels. -/
theorem coveredPixels_spriteDrawn {s : State} {x y : Reg} {n : Nibble} (hx : (spriteDrawn s x y n).getV x = s.getV x)
    (hy : (spriteDrawn s x y n).getV y = s.getV y) :
    coveredPixels (spriteDrawn s x y n) x y n = coveredPixels s x y n := by
  simp only [coveredPixels, spriteBytes, hx, hy, spriteDrawn_peek, spriteDrawn_cfg, spriteDrawn_index]

theorem isHalted_spriteDrawn (s : State) (x y : Reg) (n : Nibble) : isHalted (spriteDrawn s x y n) = isHalted s := by
  simp only [isHalted, spriteDrawn_run]

/-- Settles O45: both draws cover the same pixels, so each covered pixel is toggled twice, and the second finds it lit
exactly if the first found it unlit. -/
theorem drawingTwiceRestoresTheFramebuffer : Obligations.DrawingTwiceRestoresTheFramebuffer := by
  intro s t u x y n _ h ht hx hy hu
  have hin := drw_reads_inside h ht
  obtain rfl := Host.Outcome.next.inj ((exec_drw_drawn hin x y).symm.trans h)
  rw [← spriteDrawn_cfg s x y, ← spriteDrawn_index s x y] at hin
  obtain rfl := Host.Outcome.next.inj ((exec_drw_drawn hin x y).symm.trans hu)
  have hcovered := coveredPixels_spriteDrawn hx hy
  have hcollides :
      (∃ r c, SpriteCovers (spriteDrawn s x y n) x y n r c ∧ pixel (spriteDrawn s x y n).fb r c = true) ↔
        ∃ r c, SpriteCovers s x y n r c ∧ pixel s.fb r c = false := by
    refine exists₂_congr fun r c => ?_
    rw [← mem_coveredPixels, ← mem_coveredPixels, hcovered]
    exact and_congr_right fun hc => by simp [pixel_spriteDrawn, hc]
  refine ⟨fun r c => ?_, (isHalted_spriteDrawn _ x y n).trans ht, ?_⟩
  · rw [pixel_spriteDrawn, hcovered, pixel_spriteDrawn, Bool.xor_assoc, Bool.xor_self, Bool.xor_false]
  · rw [← hcollides, ← spriteDrawn_cfg s x y n]
    exact spriteDrawn_flag (spriteDrawn s x y n) x y n

end Sys2Proof.Machine
end

section
/-!
PROOF. The timer and keypad instructions (spec/44_timers_input.md rules R190 to R197): the key skips on the key index, the
timer reads and writes, and the wait of FX0A, which no transaction but STOP and KEY_DOWN ends.
-/

namespace Sys2Proof.Machine

/-! ### The key index where it raises nothing (R190) -/

theorem held_of_toNat_eq {s : State} {v : Byte} {k : Key} (h : v.toNat = k.val) : held s v = .ok (s.key.get k) := by
  have hk : Fin.ofNat 16 v.toNat = k := Fin.ext ((Nat.mod_eq_of_lt (h ▸ k.isLt)).trans h)
  rw [held, if_pos (h ▸ Nat.le_of_lt_succ k.isLt), hk]

theorem held_mask4 {s : State} {v : Byte} {k : Key} (hv : 0xF < v.toNat) (hm : s.cfg.keyRange = .mask4)
    (h : v.toNat % 16 = k.val) : held s v = .ok (s.key.get k) := by
  have hlow : (v &&& 0x0F).toNat = v.toNat % 16 := by
    rw [BitVec.toNat_and]
    exact Nat.and_two_pow_sub_one_eq_mod v.toNat 4
  have hk : Fin.ofNat 16 (v &&& 0x0F).toNat = k := Fin.ext (by rw [Fin.val_ofNat, hlow, Nat.mod_mod, h])
  rw [held, if_neg (Nat.not_le.mpr hv), hm, hk]

theorem held_notHeld {s : State} {v : Byte} (hv : 0xF < v.toNat) (hn : s.cfg.keyRange = .notHeld) :
    held s v = .ok false := by
  rw [held, if_neg (Nat.not_le.mpr hv), hn]

/-! ### The key skips (R191, R192) -/

/-- Where the key index raises nothing, each key skip is a pc write on whether the key is held. -/
theorem exec_keySkips_of_held {s : State} {x : Reg} {h : Bool} (hh : held s (s.getV x) = .ok h) :
    exec (.skp x) s = .next (s.setPc (if h then s.pc + 4 else s.pc + 2)) ∧
      exec (.sknp x) s = .next (s.setPc (if h then s.pc + 2 else s.pc + 4)) := by
  have hnot : s.advance.skipIf (!h) = s.setPc (if h then s.pc + 2 else s.pc + 4) := by
    rw [advance_skipIf_eq (p := ¬h = true) (by simp), ite_not]
  rw [exec_skp, exec_sknp, hh]
  exact ⟨congrArg _ (advance_skipIf_eq Iff.rfl s), congrArg _ hnot⟩

/-- Settles O46: the key index answers the key the parameter names, or raises what the table lists. -/
theorem keySkipsTestTheKey : Obligations.KeySkipsTestTheKey := fun _ x =>
  ⟨fun _ hk => exec_keySkips_of_held (held_of_toNat_eq hk),
    fun hv hf => ⟨Raises.exec_eq (i := .skp x) ⟨hf, hv, rfl, rfl⟩, Raises.exec_eq (i := .sknp x) ⟨hf, hv, rfl, rfl⟩⟩,
    fun _ hv hm hk => exec_keySkips_of_held (held_mask4 hv hm hk),
    fun hv hn => exec_keySkips_of_held (held_notHeld hv hn)⟩

/-! ### The timers (R193, R194, R195) -/

/-- Settles O47: FX07 is one register write, FX15 and FX18 one timer write each. -/
theorem timerReadAndWrites : Obligations.TimerReadAndWrites := fun s _ =>
  ⟨exec_setV_outcome (· = s.dt) rfl rfl,
    ⟨_, rfl, rfl, rfl, (keeps_setDt s.advance _).of_advance⟩,
    ⟨_, rfl, rfl, rfl, (keeps_setSt s.advance _).of_advance⟩⟩

/-! ### The keys, read after write (R32) -/

theorem State.setKey_key_get (s : State) (k j : Key) (b : Bool) :
    (s.setKey k b).key.get j = if j = k then b else s.key.get j := by
  simp only [State.setKey_key, Vector.get_eq_getElem, Vector.getElem_set, Fin.ext_iff, eq_comm]

/-! ### The wait of FX0A (R196, R197) -/

/-- A waiting core answers every transaction but KEY_DOWN and STOP, and none of these moves more than timers, keys and
redraw. -/
theorem perform_of_waitKey {s : State} {x : Reg} {tr : Transaction} (hs : s.run = .waitKey x) (hstop : tr ≠ .stop)
    (hkey : ∀ k, tr ≠ .keyDown k) :
    ∃ t r, perform tr s = .next (t, r) ∧ KeepsBut [.dt, .st, .key, .redraw] s t := by
  cases tr with
  | step => exact ⟨s, _, perform_step_of_next (step_not_ready (by simp [hs])), KeepsBut.refl _ s⟩
  | tick => exact ⟨_, _, rfl, (keeps_tick s).mono (by decide)⟩
  | keyDown k => exact absurd rfl (hkey k)
  | keyUp k => exact ⟨_, _, rfl, (keeps_keyUp k s).mono (by decide)⟩
  | stop => exact absurd rfl hstop
  | readClearRedraw => exact ⟨_, _, rfl, (keeps_readClearRedraw s).mono (by decide)⟩
  | snapshot | tone | status => exact ⟨_, _, rfl, KeepsBut.refl _ s⟩

/-- The wait outlasts a run of such transactions, since none of them moves run. -/
theorem performAll_of_waitKey {x : Reg} {ts : List Transaction} (hts : ∀ tr ∈ ts, tr ≠ .stop ∧ ∀ k, tr ≠ .keyDown k)
    {s : State} (hs : s.run = .waitKey x) :
    ∃ u, performAll ts s = .next u ∧ KeepsBut [.dt, .st, .key, .redraw] s u := by
  induction ts generalizing s with
  | nil => exact ⟨s, rfl, KeepsBut.refl _ s⟩
  | cons tr ts ih =>
    obtain ⟨⟨hstop, hkey⟩, hrest⟩ := List.forall_mem_cons.mp hts
    obtain ⟨t, r, ht, hst⟩ := perform_of_waitKey hs hstop hkey
    have hrun : t.run = s.run := hst .run (by decide)
    obtain ⟨u, hu, htu⟩ := ih hrest (hrun.trans hs)
    exact ⟨u, by rw [performAll, ht]; exact hu, hst.trans htu (List.Subset.refl _) (List.Subset.refl _)⟩

/-- A STOP of a core that has not halted is a fault without a word or an address (R243). -/
theorem stop_of_not_halted {s : State} (h : isHalted s = false) :
    stop s = takeFault { cause := .stopped, info := 0 } s.pc 0 s := by
  rw [stop, h]
  rfl

theorem isHalted_of_waitKey {s : State} {x : Reg} (h : s.run = .waitKey x) : isHalted s = false := by
  rw [isHalted, h]

theorem keyDown_of_waitKey {s : State} {x : Reg} (h : s.run = .waitKey x) (k : Key) :
    keyDown k s = ((s.setKey k true).setV x (BitVec.ofNat 8 k.val)).setRun .ready := by
  rw [keyDown, h]

/-- R196: a KEY_DOWN completes the wait. -/
theorem keyDown_completes {s : State} {x : Reg} (h : s.run = .waitKey x) (k : Key) :
    (keyDown k s).run = .ready ∧ ((keyDown k s).getV x).toNat = k.val ∧ (keyDown k s).key.get k = true ∧
      (∀ j : Key, j ≠ k → (keyDown k s).key.get j = s.key.get j) ∧ KeepsRegsBut [x] s (keyDown k s) ∧
      KeepsBut [.v, .key, .run] s (keyDown k s) := by
  refine ⟨?_, ?_, ?_, fun j hj => ?_, ?_, (keeps_keyDown k s).mono (by decide)⟩
  all_goals rw [keyDown_of_waitKey h]
  · rfl
  · rw [State.setRun_getV, State.getV_setV_same, BitVec.toNat_ofNat]
    exact Nat.mod_eq_of_lt (k.isLt.trans (by decide))
  · exact (State.setKey_key_get s k k true).trans (if_pos rfl)
  · exact (State.setKey_key_get s k j true).trans (if_neg hj)
  · exact keepsRegs_setV (s.setKey k true) x _

/-- Settles O48: the wait outlasts the run with run and pc kept, so that STEP, STOP and KEY_DOWN find them as the FX0A
left them. -/
theorem waitForKeyCompletesOnKeyDown : Obligations.WaitForKeyCompletesOnKeyDown := by
  refine fun s x => ⟨_, rfl, rfl, fun ts hts => ?_⟩
  obtain ⟨u, hu, hkeeps⟩ := performAll_of_waitKey hts (s := s.advance.setRun (.waitKey x)) rfl
  have hrun : u.run = .waitKey x := hkeeps .run (by decide)
  have hpc : u.pc = s.pc + 2 := hkeeps .pc (by decide)
  refine ⟨u, hu, hrun, hkeeps, (stepRequestAnswersItsStatus u).1 x hrun, ?_, ?_,
    fun k => ⟨_, rfl, keyDown_completes hrun k⟩⟩
  all_goals rw [stop_of_not_halted (isHalted_of_waitKey hrun)]
  · rfl
  · exact hpc

end Sys2Proof.Machine
end

section
/-!
PROOF. The legacy system call and the UNKNOWN words (spec/45_system.md rules R210 and R211).
-/

namespace Sys2Proof.Machine

/-! ### UNKNOWN words (R211) -/

theorem runWord_of_decode_error {s : State} {w : Word} {e : DecodeError} (h : decodeWord s.cfg.strict59 w = .error e) :
    runWord w s = .next (skipUnknown w s) := by
  rw [runWord, h]

/-- Settles O9: the decoder finds no instruction for a word of the table (R87), so the word is passed over. -/
theorem unknownWordIsReportedAndPassedOver : Obligations.UnknownWordIsReportedAndPassedOver := by
  intro s w hr hf hu
  have hd : decodeWord s.cfg.strict59 w = .error (.unknownOpcode w) := (unknownWordsAreThoseOfTheTable _ w).1 hu
  rw [step_of_fetch hr hf, runWord_of_decode_error hd]
  rfl

/-! ### 0NNN (R210) -/

theorem exec_sys_nop {s : State} (h : s.cfg.sysPolicy = .nop) (nnn : Imm12) :
    exec (.sys nnn) s =
      .next (s.advance.emit { kind := .unimplemented, word := encode (.sys nnn), addr := s.pc }) := by
  rw [exec, execSys, h, conclude_ok]

/-- Settles O49: NOP completes with the trace entry; FATAL raises what the table of R221 lists. -/
theorem legacyCallFollowsThePolicy : Obligations.LegacyCallFollowsThePolicy := fun s nnn =>
  have hfatal (h : s.cfg.sysPolicy = .fatal) : Raises (.sys nnn) s .sysUnimplemented 0 := ⟨h, rfl, rfl⟩
  ⟨fun h => exec_sys_nop h nnn, fun h => (hfatal h).exec_eq⟩

end Sys2Proof.Machine
end

section
/-!
PROOF. Faults and the host's transactions (spec/60_exceptions.md rules R220 to R250): a fault is precise, Halted is
final, ticks are the only thing that counts a timer down, and what key events, STOP and the read-outs do.
-/

namespace Sys2Proof.Machine

/-! ### Faults are precise (R223) -/

/-- An instruction that can raise is decoded from its own word only: the loose low nibble is that of 5XY0 and 9XY0,
which raise nothing (R86, R89, R221). -/
theorem Raises.encode_eq {strict : Bool} {w : Word} {i : Instr} {s : State} {c : Cause} {a : Nat}
    (h : Raises i s c a) (hd : decodeWord strict w = .ok i) : encode i = w := by
  rcases (wellFormed_isWordOf_of_decodeWord hd).2 with he | ⟨rfl, hc | hc, -⟩
  · exact he
  all_goals
    simp only [decodeWord, hc, or_true, if_true] at hd
    cases hd
    exact h.elim

/-- Settles O11: the step took a fetch fault, with no word, or a fault its instruction raises, with the word fetched. -/
theorem faultingStepIsPrecise : Obligations.FaultingStepIsPrecise := by
  intro s t hr h ht
  obtain ⟨c, hc⟩ := isHalted_iff.mp ht
  rcases step_cases h with ⟨hn, -⟩ | ⟨-, ⟨r, hf, rfl⟩ | ⟨w, i, hf, hd, hi⟩ | ⟨w, -, -, -, rfl⟩⟩
  · exact absurd hr hn
  · obtain ⟨-, hcause, -⟩ := fetch_error hf
    exact ⟨r.cause, rfl, rfl, rfl, fun _ => ⟨if_pos hcause, r, hf⟩, fun hne => absurd hcause hne⟩
  · obtain ⟨a, ha, rfl⟩ := exec_halted hr hi hc
    have hne : c ≠ .fetchRange := fun e => fetchRange_not_raised i (e ▸ ha.legal.1)
    exact ⟨c, rfl, rfl, rfl, fun e => absurd e hne, fun _ => hf.trans (congrArg _ (ha.encode_eq hd).symm)⟩
  · exact absurd (hr.symm.trans hc) nofun

/-! ### Halted is final (R226) -/

section
variable {s : State} (h : isHalted s = true)
include h

theorem tick_of_halted : tick s = s := if_pos h

theorem keyUp_of_halted (k : Key) : keyUp k s = s := if_pos h

theorem stop_of_halted : stop s = s := if_pos h

theorem keyDown_of_halted (k : Key) : keyDown k s = s := by
  obtain ⟨c, hc⟩ := isHalted_iff.mp h
  rw [keyDown, hc]

theorem step_of_halted : step s = .next s := by
  obtain ⟨c, hc⟩ := isHalted_iff.mp h
  exact step_not_ready (by simp [hc])

/-- In Halted only READ_CLEAR_REDRAW changes anything. -/
theorem perform_of_halted {tr : Transaction} (htr : tr ≠ .readClearRedraw) : ∃ r, perform tr s = .next (s, r) := by
  cases tr with
  | step => exact ⟨_, perform_step_of_next (step_of_halted h)⟩
  | tick => exact ⟨.done, by rw [perform, tick_of_halted h]⟩
  | keyDown k => exact ⟨.done, by rw [perform, keyDown_of_halted h]⟩
  | keyUp k => exact ⟨.done, by rw [perform, keyUp_of_halted h]⟩
  | stop => exact ⟨.done, by rw [perform, stop_of_halted h]⟩
  | readClearRedraw => exact absurd rfl htr
  | snapshot | tone | status => exact ⟨_, rfl⟩

/-- A halted core answers every transaction and keeps every element but redraw. -/
theorem perform_of_halted_keeps (tr : Transaction) : ∃ t r, perform tr s = .next (t, r) ∧ KeepsBut [.redraw] s t := by
  by_cases htr : tr = .readClearRedraw
  · subst htr
    exact ⟨_, _, rfl, keeps_readClearRedraw s⟩
  · obtain ⟨r, hr⟩ := perform_of_halted h htr
    exact ⟨s, r, hr, KeepsBut.refl _ s⟩

end

theorem isHalted_congr {s t : State} (h : t.run = s.run) : isHalted t = isHalted s := by
  rw [isHalted, isHalted, h]

/-- A halted core answers every run of transactions and keeps every element but redraw, since each leaves it halted. -/
theorem performAll_of_halted (ts : List Transaction) {s : State} (h : isHalted s = true) :
    ∃ t, performAll ts s = .next t ∧ KeepsBut [.redraw] s t := by
  induction ts generalizing s with
  | nil => exact ⟨s, rfl, KeepsBut.refl _ s⟩
  | cons tr ts ih =>
    obtain ⟨t, r, ht, hst⟩ := perform_of_halted_keeps h tr
    obtain ⟨u, hu, htu⟩ := ih ((isHalted_congr (hst .run (by decide))).trans h)
    exact ⟨u, by rw [performAll, ht]; exact hu, hst.trans htu (List.Subset.refl _) (List.Subset.refl _)⟩

/-- Settles O13: transactions and runs leave a halted core halted; a LOAD looks at the parameters and draws only. -/
theorem haltedIsFinal : Obligations.HaltedIsFinal := by
  intro s c hc
  have h : isHalted s = true := isHalted_iff.mpr ⟨c, hc⟩
  exact ⟨(stepRequestAnswersItsStatus s).2.1 c hc, fun _ => perform_of_halted h, fun ts => performAll_of_halted ts h,
    fun bytes hlen => ⟨_, load_ok_iff.mpr ⟨hlen, rfl⟩, rfl, rfl⟩⟩

/-! ### Ticks (R244) -/

theorem countDown_toNat (t : Byte) : (countDown t).toNat = t.toNat - 1 := by
  unfold countDown
  split
  · bv_omega
  · omega

theorem tick_of_not_halted {s : State} (h : isHalted s = false) :
    tick s = { s with dt := countDown s.dt, st := countDown s.st } := by
  rw [tick, h]
  rfl

theorem performAll_ticks : ∀ (n : Nat) (s : State), performAll (List.replicate n .tick) s = .next (tick^[n] s)
  | 0, _ => rfl
  | n + 1, s => performAll_ticks n (tick s)

theorem keeps_ticks (n : Nat) (s : State) : KeepsBut [.dt, .st] s (tick^[n] s) := by
  induction n generalizing s with
  | zero => exact KeepsBut.refl _ s
  | succ n ih => exact (keeps_tick s).trans (ih (tick s)) (List.Subset.refl _) (List.Subset.refl _)

/-- In a core that has not halted each tick takes 1 from each timer, down to 0. -/
theorem ticks_timers {s : State} (h : isHalted s = false) (n : Nat) :
    (tick^[n] s).dt.toNat = s.dt.toNat - n ∧ (tick^[n] s).st.toNat = s.st.toNat - n := by
  induction n with
  | zero => exact ⟨rfl, rfl⟩
  | succ n ih =>
    obtain ⟨hdt, hst⟩ := ih
    have hn : isHalted (tick^[n] s) = false := (isHalted_congr (keeps_ticks n s .run (by decide))).trans h
    rw [Function.iterate_succ_apply', tick_of_not_halted hn]
    simp only [countDown_toNat, hdt, hst]
    omega

/-! ### Steps leave the timers alone (R244) -/

/-- Only FX15 writes DT and only FX18 writes ST. -/
theorem exec_timers {i : Instr} {s u : State} (h : exec i s = .next u) :
    (u.dt = s.dt ∨ ∃ x, i = .ldDtX x ∧ u.dt = s.getV x) ∧ (u.st = s.st ∨ ∃ x, i = .ldStX x ∧ u.st = s.getV x) := by
  cases i with
  | ldDtX x => cases h; exact ⟨.inr ⟨x, rfl, rfl⟩, .inl rfl⟩
  | ldStX x => cases h; exact ⟨.inl rfl, .inr ⟨x, rfl, rfl⟩⟩
  | _ => exact ⟨.inl (exec_keeps h .dt (by simp [writtenFields])), .inl (exec_keeps h .st (by simp [writtenFields]))⟩

/-- A step writes a timer only by the FX15 or FX18 it fetched. -/
theorem step_timers {s u : State} (h : step s = .next u) :
    (u.dt = s.dt ∨ ∃ w x, s.run = .ready ∧ fetch s = .ok w ∧ decodeWord s.cfg.strict59 w = .ok (.ldDtX x) ∧
      u.dt = s.getV x) ∧
    (u.st = s.st ∨ ∃ w x, s.run = .ready ∧ fetch s = .ok w ∧ decodeWord s.cfg.strict59 w = .ok (.ldStX x) ∧
      u.st = s.getV x) := by
  rcases step_cases h with ⟨-, rfl⟩ | ⟨hr, ⟨r, -, rfl⟩ | ⟨w, i, hf, hd, hi⟩ | ⟨w, -, -, -, rfl⟩⟩
  · exact ⟨.inl rfl, .inl rfl⟩
  · exact ⟨.inl rfl, .inl rfl⟩
  · exact (exec_timers hi).imp (Or.imp_right fun ⟨x, hx, e⟩ => ⟨w, x, hr, hf, hx ▸ hd, e⟩)
      (Or.imp_right fun ⟨x, hx, e⟩ => ⟨w, x, hr, hf, hx ▸ hd, e⟩)
  · exact ⟨.inl rfl, .inl rfl⟩

/-- Settles O50: a run of ticks is the iterated tick, which counts down; an instruction and a step do not. -/
theorem ticksCountDownToZero : Obligations.TicksCountDownToZero := by
  refine fun s n => ⟨_, performAll_ticks n s, keeps_ticks n s, fun h => Function.iterate_fixed (tick_of_halted h) n,
    fun h => ticks_timers h n, fun i u h => ?_, fun u => step_timers⟩
  obtain ⟨hdt, hst⟩ := exec_timers h
  exact ⟨fun hi => hdt.resolve_right fun ⟨x, hx, _⟩ => hi x hx, fun hi => hst.resolve_right fun ⟨x, hx, _⟩ => hi x hx⟩

/-! ### Key events (R245) -/

theorem keyDown_of_ready {s : State} (h : s.run = .ready) (k : Key) : keyDown k s = s.setKey k true := by
  rw [keyDown, h]

theorem keyUp_of_not_halted {s : State} (h : isHalted s = false) (k : Key) : keyUp k s = s.setKey k false := by
  rw [keyUp, h]
  rfl

/-- In Ready and in WaitKey a KEY_DOWN marks its key held and leaves the others. -/
theorem keyDown_key {s : State} (h : isHalted s = false) (k : Key) : (keyDown k s).key = (s.setKey k true).key := by
  cases hr : s.run with
  | ready => rw [keyDown_of_ready hr]
  | waitKey x => rw [keyDown_of_waitKey hr]; rfl
  | halted c => exact absurd (isHalted_iff.mpr ⟨c, hr⟩) (by simp [h])

/-- Settles O51: each event is one write of the key array, and the wait's completion is that of R196. -/
theorem keyEventsSetAndClearTheKey : Obligations.KeyEventsSetAndClearTheKey := by
  refine fun s k => ⟨fun h => ⟨keyDown_of_halted h k, keyUp_of_halted h k⟩, fun h => ?_, fun hr => ?_, fun x hx => ?_⟩
  · rw [keyDown_key h, keyUp_of_not_halted h]
    simp only [State.setKey_key_get]
    exact ⟨if_pos trivial, if_pos trivial, fun j hj => ⟨if_neg hj, if_neg hj⟩, keeps_setKey s k false⟩
  · rw [keyDown_of_ready hr]
    exact keeps_setKey s k true
  · obtain ⟨hrun, hv, -, -, hregs, hkeeps⟩ := keyDown_completes hx k
    exact ⟨hrun, hv, hregs, hkeeps⟩

/-! ### STOP (R243) -/

/-- Settles O52: STOP takes a fault of cause STOPPED at pc, with no word and no address. -/
theorem stopHaltsAndRecordsPc : Obligations.StopHaltsAndRecordsPc := fun s =>
  ⟨stop_of_halted, fun h => (stop_of_not_halted h).trans (takeFault_eq_haltedBy s (c := .stopped) nofun 0 0)⟩

/-! ### Read-outs (R247 to R250) -/

/-- R249: the tone sounds exactly while ST is not 0. -/
theorem tone_iff {s : State} : tone s = true ↔ s.st ≠ 0 := by
  rw [tone, decide_eq_true_iff, gt_iff_lt, Nat.pos_iff_ne_zero]
  exact not_congr (BitVec.toNat_inj (y := 0))

/-- Settles O53: each read-out is a field of the state, and the tone a test of ST. -/
theorem readOutsReportTheState : Obligations.ReadOutsReportTheState := by
  refine fun s => ⟨rfl, rfl, rfl, rfl, ?_⟩
  rw [perform]
  by_cases h : s.st = 0
  · exact .inl ⟨h, by rw [tone, h]; rfl⟩
  · exact .inr ⟨h, by rw [tone_iff.mpr h]⟩

end Sys2Proof.Machine
end
